-- ==== Sys2Proof/Word.lean ====
section
/-! DEFINITION. The word types of the block: the widths of spec/00_scope.md rule R5 and
spec/20_memory.md rule R35. -/

namespace Sys2Proof

/-- A command word, `CMD_W` = 128 bits (R5, R45). -/
abbrev CmdWord := BitVec 128

/-- One of the four words that carry a command word over a 32-bit interconnect (R33). -/
abbrev BusWord := BitVec 32

/-- A response word, `RESP_W` = 8 bits (R5, R52). -/
abbrev RespWord := BitVec 8

/-- A tap position or an order as a register or a field holds it, `ORDER_W` = 5 bits (R5, R15). -/
abbrev OrderWord := BitVec 5

/-- The contents of the register STATE, `N_MAX` = 31 bits (R5, R19). -/
abbrev ShiftWord := BitVec 31

end Sys2Proof
end

