-- ==== Sys2Proof/Syntax.lean ====
section
/-! DEFINITION. The commands of PRBS-CMD v1, one constructor for each row of spec/opcode_table.json
(spec/30_encoding.md rules R46, R55). Operands are the numbers the commands speak of; that they fit
their fields is `Instr.wellFormed`. -/

namespace Sys2Proof

/-- The seed operand of CONSTRUCT.S (R48): ST = 1 says that the host's value was not an integer, and
SEED is then ignored; ST = 0 says that it is the integer in SEED. -/
inductive Seed where
  /-- `nonint`: ST = 1. -/
  | nonInteger
  /-- An integer: ST = 0. -/
  | integer (v : Int)
  deriving DecidableEq, Repr

/-- A command. -/
inductive Instr where
  /-- CONSTRUCT, `construct <n>`: construct with the default seed (R71). -/
  | construct (n : Nat)
  /-- CONSTRUCT.S, `construct.s <n>, <seed>`: construct with a given seed (R72). -/
  | constructS (n : Nat) (seed : Seed)
  /-- NEXT_BIT, `nextbit`: emit one bit (R81). -/
  | nextBit
  /-- GENERATE, `generate <count>`: emit `count` bits (R91). -/
  | generate (count : Nat)
  /-- The reserved operation, OP = 0b11 (R104). -/
  | reserved
  deriving DecidableEq, Repr

end Sys2Proof
end

