-- ==== Sys2Proof/WellFormed.lean ====
section
/-! DEFINITION. When a command's operands fit the fields that carry them (spec/30_encoding.md rules R45,
R47, R48, R50): what an assembler accepts (R57). A reserved order is well formed; rejecting it is the
block's job (R47, R57). -/

namespace Sys2Proof

/-- A seed fits SEED when it is in [-2^63, 2^63 - 1] (R48). -/
def Seed.wellFormed : Seed → Bool
  | .nonInteger => true
  | .integer v => decide (-9223372036854775808 ≤ v) && decide (v ≤ 9223372036854775807)

/-- The operands fit: ORDER is 5 bits (R47), SEED 64 bits signed (R48), COUNT 32 bits unsigned (R50). -/
def Instr.wellFormed : Instr → Bool
  | .construct n => decide (n < 32)
  | .constructS n seed => decide (n < 32) && seed.wellFormed
  | .nextBit => true
  | .generate count => decide (count < 4294967296)
  | .reserved => true

end Sys2Proof
end

