-- ==== Sys2Proof/Decode.lean ====
section
/-! DEFINITION. Decoding a command word (spec/30_encoding.md rules R45-R56), the opcode map (R55), a
command carried over a 32-bit interconnect (spec/20_memory.md rule R33), and the encoder. -/

namespace Sys2Proof

/-- OP, `cmd[1:0]` (R45, R46). -/
def cmdOp (w : CmdWord) : BitVec 2 := w.extractLsb' 0 2

/-- ORDER, `cmd[6:2]` (R45, R47). -/
def cmdOrder (w : CmdWord) : BitVec 5 := w.extractLsb' 2 5

/-- SP, `cmd[7]`: seed present (R45, R48). -/
def cmdSp (w : CmdWord) : Bool := w.getLsbD 7

/-- ST, `cmd[8]`: seed tag, 1 = not an integer (R45, R48). -/
def cmdSt (w : CmdWord) : Bool := w.getLsbD 8

/-- COUNT, `cmd[63:32]` (R45, R50). -/
def cmdCount (w : CmdWord) : BitVec 32 := w.extractLsb' 32 32

/-- SEED, `cmd[127:64]` (R45, R48). -/
def cmdSeed (w : CmdWord) : BitVec 64 := w.extractLsb' 64 64

/-- `sval64`: a 64-bit field read as two's complement (R8). -/
def sval64 (v : BitVec 64) : Int :=
  if v.getLsbD 63 then (v.toNat : Int) - 18446744073709551616 else (v.toNat : Int)

/-- The seed operand that ST and SEED carry; SEED is not read when ST = 1 (R48, R51). -/
def seedOperand (st : Bool) (seed : BitVec 64) : Seed :=
  if st then .nonInteger else .integer (sval64 seed)

/-- Decode and dispatch (R54). Total: every command word is one command, and the fields an operation
does not read are ignored (R51). -/
def decode (w : CmdWord) : Instr :=
  if cmdOp w = 0b00#2 then
    if cmdSp w then .constructS (cmdOrder w).toNat (seedOperand (cmdSt w) (cmdSeed w))
    else .construct (cmdOrder w).toNat
  else if cmdOp w = 0b01#2 then .nextBit
  else if cmdOp w = 0b10#2 then .generate (cmdCount w).toNat
  else .reserved

/-- Why a list of interconnect words is no command. -/
inductive DecodeError where
  /-- Fewer than four words have arrived: the block never acts on part of a command word (R33). -/
  | incompleteCommand
  deriving DecidableEq, Repr

/-- The command word that four interconnect words carry: word `k` is `cmd[32k+31:32k]`, and word 0
comes first (R33). -/
def joinBusWords (w0 w1 w2 w3 : BusWord) : CmdWord := w3 ++ w2 ++ w1 ++ w0

/-- The first command on a 32-bit interconnect, and the words after it (R33). -/
def decodeBus : List BusWord → Except DecodeError (Instr × List BusWord)
  | w0 :: w1 :: w2 :: w3 :: rest => .ok (decode (joinBusWords w0 w1 w2 w3), rest)
  | _ => .error .incompleteCommand

/-- The command words that a stream of interconnect words carries; a command of which fewer than four
words have arrived is none yet (R33). DESIGN CHOICE: what is left of the stream then is dropped (log entry
18). -/
def busCommands : List BusWord → List CmdWord
  | w0 :: w1 :: w2 :: w3 :: rest => joinBusWords w0 w1 w2 w3 :: busCommands rest
  | _ => []

/-- A command word from its fields; `cmd[31:9]` is 0 (R45, R51). -/
def packWord (op : BitVec 2) (order : BitVec 5) (sp st : Bool) (count : BitVec 32)
    (seed : BitVec 64) : CmdWord :=
  seed ++ count ++ 0#23 ++ BitVec.ofBool st ++ BitVec.ofBool sp ++ order ++ op

/-- The word of a command, 0 in every field it does not read (R51, R57). -/
def encode : Instr → CmdWord
  | .construct n => packWord 0b00#2 (BitVec.ofNat 5 n) false false 0#32 0#64
  | .constructS n .nonInteger => packWord 0b00#2 (BitVec.ofNat 5 n) true true 0#32 0#64
  | .constructS n (.integer v) =>
      packWord 0b00#2 (BitVec.ofNat 5 n) true false 0#32 (BitVec.ofInt 64 v)
  | .nextBit => packWord 0b01#2 0#5 false false 0#32 0#64
  | .generate count => packWord 0b10#2 0#5 false false (BitVec.ofNat 32 count) 0#64
  | .reserved => packWord 0b11#2 0#5 false false 0#32 0#64

/-- A row of the opcode map: the words it matches are those whose `cmd[8:0]` agrees with `pattern`
wherever `mask` is 1 (R55). -/
structure OpcodeRow where
  mnemonic : String
  pattern : BitVec 9
  mask : BitVec 9
  deriving DecidableEq, Repr

/-- Whether a command word is one of a row's words (R55). -/
def OpcodeRow.hits (r : OpcodeRow) (w : CmdWord) : Bool :=
  decide (w.extractLsb' 0 9 &&& r.mask = r.pattern)

/-- The opcode map (R55). -/
def opcodeMap : List OpcodeRow :=
  [⟨"CONSTRUCT", 0x000#9, 0x083#9⟩,
   ⟨"CONSTRUCT.S", 0x080#9, 0x083#9⟩,
   ⟨"NEXT_BIT", 0x001#9, 0x003#9⟩,
   ⟨"GENERATE", 0x002#9, 0x003#9⟩,
   ⟨"(reserved)", 0x003#9, 0x003#9⟩]

/-- The row of the opcode map that a command belongs to. -/
def Instr.mnemonic : Instr → String
  | .construct _ => "CONSTRUCT"
  | .constructS _ _ => "CONSTRUCT.S"
  | .nextBit => "NEXT_BIT"
  | .generate _ => "GENERATE"
  | .reserved => "(reserved)"

/-- The command word whose low `nbits` bits are those of `w` and whose other bits are 0. -/
def tableWord (nbits w : Nat) : CmdWord := BitVec.ofNat 128 (w % 2 ^ nbits)

/-- The command the decoder reads from a word of the opcode table. There is one length, 128 bits (R59);
a longer pattern is no command word. -/
def decodeTableWord (nbits w : Nat) : Option Instr :=
  if nbits ≤ 128 then some (decode (tableWord nbits w)) else none

end Sys2Proof
end

