-- ==== Sys2Proof/Config.lean ====
section
/-! DEFINITION. What is fixed for one block (spec/00_scope.md rule R5) and the values the spec leaves
open. The open values are constants with no body: nothing can be proved of what they are. -/

namespace Sys2Proof

/-- `ORDERS`, the closed enumeration of supported polynomial degrees (R5, R13). The tap pair of each
is `PrbsOrder.taps`. -/
inductive PrbsOrder where
  | prbs7 | prbs9 | prbs11 | prbs15 | prbs23 | prbs31
  deriving DecidableEq, Repr

namespace Config

/-- What ORDER holds after a reset or power-up that takes the `k`-th draw (R24, R116; log entry 3). -/
opaque drawOrder : Nat → OrderWord

/-- What T1 holds after a reset or power-up that takes the `k`-th draw (R24, R116; log entry 3). -/
opaque drawT1 : Nat → OrderWord

/-- What T2 holds after a reset or power-up that takes the `k`-th draw (R24, R116; log entry 3). -/
opaque drawT2 : Nat → OrderWord

/-- What STATE holds after a reset or power-up that takes the `k`-th draw (R24, R116; log entry 3). -/
opaque drawState : Nat → ShiftWord

/-- What VALID holds after a power-up that is the `k`-th draw: arbitrary (R114; log entry 6). -/
opaque drawValid : Nat → Bool

/-- Whether LIFE is RUNNING after a power-up that is the `k`-th draw: arbitrary (R114; log entry 6). -/
opaque drawLife : Nat → Bool

/-- The bit read at tap position 0, which does not exist: positions start at 1 (R7). No state that a
run from reset reaches reads it (log entry 4). -/
opaque noTapBit : ShiftWord → Bool

/-- `N_INST` less one: the number of further blocks in the system, OPEN (R5, R112). -/
opaque furtherBlocks : Nat

/-- `N_INST`, the number of independent blocks, at least 1 (R5, R112). -/
def nInst : Nat := furtherBlocks + 1

/-- `LAT_CMD`, OPEN: cycles from command accept to response. No rule depends on it (R5, R125). -/
opaque latCmd : Nat

/-- `BIT_INTERVAL` less one, OPEN (R5, R125). -/
opaque bitIntervalLessOne : Nat

/-- `BIT_INTERVAL`, cycles between successive GENERATE bits, at least 1. No rule depends on it
(R5, R125). -/
def bitInterval : Nat := bitIntervalLessOne + 1

end Config

end Sys2Proof
end

