-- ==== Sys2Proof/Machine/State.lean ====
section
/-! DEFINITION. The state of the block: the six registers of spec/10_state.md rule R15, and the model's own
fields for the two sides of the ports (what the host does, what the block has sent). -/

namespace Sys2Proof.Machine

/-- What the register LIFE holds: 0 = CONSTRUCTED, 1 = RUNNING (R15, R21). -/
inductive Life where
  | constructed
  | running
  deriving DecidableEq, Repr

/-- The status codes of spec/60_exceptions.md rule R101. Code 7 is reserved, never produced. -/
inductive Status where
  /-- 0: the command succeeded. -/
  | ok
  /-- 1: CONSTRUCT.S with ST = 1. -/
  | errSeedType
  /-- 2: CONSTRUCT.S with seed <= 0. -/
  | errSeedNonpos
  /-- 3: CONSTRUCT.S with seed > 2^n - 1. -/
  | errSeedRange
  /-- 4: CONSTRUCT or CONSTRUCT.S with ORDER not in `ORDERS`. -/
  | errOrder
  /-- 5: NEXT_BIT or GENERATE with VALID = 0. -/
  | errNotConstructed
  /-- 6: OP = 0b11. -/
  | errBadOp
  deriving DecidableEq, Repr

/-- One item the block sends to the host (R43, R44). -/
inductive Transfer where
  /-- One bit of a GENERATE, on `bit_out`. -/
  | bitOut (b : Bool)
  /-- A response word, on `resp`. -/
  | resp (w : RespWord)
  deriving DecidableEq, Repr

/-- One thing the outside world does to the block. The block never acts on its own (R2). -/
inductive HostAction where
  /-- The host issues a command word and takes the bits and the response: one transaction (R44). -/
  | command (w : CmdWord)
  /-- The host asserts `rst` between commands (R116). -/
  | reset
  /-- The host asserts `rst` while the command `w` is in progress (R118). -/
  | resetDuring (w : CmdWord)
  /-- A second host issues a command to this block (R39). -/
  | secondHost (w : CmdWord)
  /-- Power is applied: the registers hold arbitrary values (R114). -/
  | powerUp
  deriving DecidableEq, Repr

/-- The machine's state: the six registers that are the block's whole architectural state (R15), then
the model's own fields. -/
structure State where
  /-- VALID, 1 bit: an instance exists (R16). -/
  valid : Bool
  /-- ORDER, 5 bits: the instance's order (R17). -/
  order : OrderWord
  /-- T1, 5 bits: tap position t1 (R18). -/
  t1 : OrderWord
  /-- T2, 5 bits: tap position t2 (R18). -/
  t2 : OrderWord
  /-- STATE, 31 bits: the shift register's contents (R19). -/
  state : ShiftWord
  /-- LIFE, 1 bit (R21). -/
  life : Life
  /-- The model's own: what the host does next, oldest first (R22, R37; log entry 1). -/
  inbox : List HostAction
  /-- The model's own: what the block has sent to the host, oldest first (R44; log entry 2). -/
  sent : List Transfer
  /-- The model's own: the place in the stream of draws that the block's next unspecified values come from
(log entry 3). -/
  draws : Nat
  /-- The model's own: power has been applied and `rst` not yet asserted (R114, R119; log entry 6). -/
  awaitingReset : Bool
  deriving DecidableEq, Repr

/-- Why a machine stops. The block takes no traps and raises no exceptions (R105): no step faults. The
faults below are raised on the host's side, by its reading of a response. -/
inductive Fault where
  /-- A response decoder saw STATUS = 7, which is reserved and never produced (R101; 93 U9). Raised by
  `decodeResponse`; safe. -/
  | reservedStatus
  /-- A transaction did not end in exactly one response word (R44). Raised by `abstractResponse`; safe. -/
  | incompleteTransaction
  /-- A response decoder saw `resp[7:4]` other than 0, which is always 0 (R52; log entry 8). Raised by
  `decodeResponse`; safe. -/
  | reservedResponseBits
  deriving DecidableEq, Repr

/-- Why a run has no meaning in the model. No command is refused; these are host actions that the spec
says the model refuses. -/
inductive Refusal where
  /-- An instruction that is not modelled yet: raised by a refused arm of `exec`; safe. No arm is. -/
  | notModelled (mnemonic : String)
  /-- `rst` during a command: the model gives such a run no meaning and refuses it (R118). Raised by
  `perform`; safe. -/
  | resetDuringCommand
  /-- Two hosts on one block: outside the model, which refuses it (R39). Raised by `perform`; safe. -/
  | concurrentHosts
  /-- A command to a freshly powered block before `rst` (R114, R119; 93 U5). Raised by `perform`; safe. -/
  | commandBeforeReset
  deriving DecidableEq, Repr

/-- The state right after reset (R24, R116): VALID = 0, LIFE = CONSTRUCTED. ORDER, T1, T2 and STATE are
unspecified there; the zeros are DESIGN CHOICE (log entry 5). The host has done nothing yet, the block has
sent nothing, and the draw counter starts at 0 (DESIGN CHOICE, log entries 1, 2, 3). -/
def State.reset : State where
  valid := false
  order := 0#5
  t1 := 0#5
  t2 := 0#5
  state := 0#31
  life := .constructed
  inbox := []
  sent := []
  draws := 0
  awaitingReset := false

end Sys2Proof.Machine
end

