-- ==== Sys2Proof/Machine/Flags.lean ====
section
/-! DEFINITION. Status codes and response words. The block has no flags (spec/10_state.md rule R27): a
command's status goes out in its own response (spec/30_encoding.md rule R52) and is not kept. -/

namespace Sys2Proof.Machine

/-- STATUS, the 3-bit code of a status (R101). -/
def Status.code : Status → BitVec 3
  | .ok => 0#3
  | .errSeedType => 1#3
  | .errSeedNonpos => 2#3
  | .errSeedRange => 3#3
  | .errOrder => 4#3
  | .errNotConstructed => 5#3
  | .errBadOp => 6#3

/-- The response word: `[2:0]` STATUS, `[3]` BIT, `[7:4]` 0 (R52). -/
def respWord (st : Status) (bit : Bool) : RespWord := 0#4 ++ BitVec.ofBool bit ++ st.code

/-- The status that a STATUS field names; none for the reserved value 7 (R101). -/
def Status.ofCode (c : BitVec 3) : Option Status :=
  [Status.ok, .errSeedType, .errSeedNonpos, .errSeedRange, .errOrder, .errNotConstructed,
    .errBadOp].find? (fun st => decide (st.code = c))

/-- The host's reading of a response word: STATUS and BIT (R52). STATUS = 7 is a fault (93 U9), and so
are reserved bits other than 0 (log entry 8); the block produces neither. -/
def decodeResponse (w : RespWord) : Host.Outcome (Status × Bool) Fault Refusal :=
  if w.extractLsb' 4 4 = 0#4 then
    match Status.ofCode (w.extractLsb' 0 3) with
    | some st => .next (st, w.getLsbD 3)
    | none => .fault .reservedStatus
  else .fault .reservedResponseBits

end Sys2Proof.Machine
end

