-- ==== Sys2Proof/Machine/Operands.lean ====
section
/-! DEFINITION. What the commands make of their operands: the orders and taps of spec/10_state.md
rule R13, the validity checker and the seed-to-state initializer of spec/40_construct.md rules R62-R67. -/

namespace Sys2Proof

/-- The degree n of an order (R13). -/
def PrbsOrder.degree : PrbsOrder → Nat
  | .prbs7 => 7
  | .prbs9 => 9
  | .prbs11 => 11
  | .prbs15 => 15
  | .prbs23 => 23
  | .prbs31 => 31

/-- `TAPS`: the tap positions (t1, t2) of an order, counted from 1 at the least significant bit (R13). -/
def PrbsOrder.taps : PrbsOrder → Nat × Nat
  | .prbs7 => (7, 6)
  | .prbs9 => (9, 5)
  | .prbs11 => (11, 9)
  | .prbs15 => (15, 14)
  | .prbs23 => (23, 18)
  | .prbs31 => (31, 28)

/-- `ORDERS` as a list (R5). -/
def PrbsOrder.all : List PrbsOrder := [.prbs7, .prbs9, .prbs11, .prbs15, .prbs23, .prbs31]

/-- The order whose degree is `n`; none when `n` is not in `ORDERS` (R47, R63). -/
def PrbsOrder.ofDegree (n : Nat) : Option PrbsOrder :=
  PrbsOrder.all.find? (fun o => decide (o.degree = n))

/-- What ORDER holds for an order: its degree (R47, R68). -/
def PrbsOrder.field (o : PrbsOrder) : OrderWord := BitVec.ofNat 5 o.degree

/-- What T1 holds for an order (R18, R68). -/
def PrbsOrder.t1 (o : PrbsOrder) : OrderWord := BitVec.ofNat 5 o.taps.1

/-- What T2 holds for an order (R18, R68). -/
def PrbsOrder.t2 (o : PrbsOrder) : OrderWord := BitVec.ofNat 5 o.taps.2

end Sys2Proof

namespace Sys2Proof.Machine

/-- `mask(n) = 2^n - 1` (R8), as STATE holds it. -/
def mask (n : Nat) : ShiftWord := BitVec.ofNat 31 (2 ^ n - 1)

/-- The validity checker (R62); the seed is none when SP = 0. The comparisons are on the whole signed
integer, never on a truncated value (R65). It reads no register. -/
def check (n : Nat) (seed : Option Seed) : Status :=
  match PrbsOrder.ofDegree n with
  | none => .errOrder
  | some _ =>
    match seed with
    | none => .ok
    | some .nonInteger => .errSeedType
    | some (.integer v) =>
      if v ≤ 0 then .errSeedNonpos
      else if 2 ^ n - 1 < v then .errSeedRange
      else .ok

/-- The seed-to-state initializer (R67): all ones without a seed, else the seed itself. `check` has
refused a seed that is not an integer before this is reached. -/
def initState (o : PrbsOrder) : Option Seed → ShiftWord
  | some (.integer v) => BitVec.ofInt 31 v
  | some .nonInteger => mask o.degree
  | none => mask o.degree

end Sys2Proof.Machine
end

