-- ==== Sys2Proof/Machine/Ops.lean ====
section
/-! DEFINITION. The named operations over the registers that the commands share: answering the host,
loading an instance, emitting bits, and reset. The block takes no traps (spec/60_exceptions.md rule
R105): an error is a `State.fail`, and there is no exception entry or return. -/

namespace Sys2Proof.Machine

/-- Sends items to the host, after those already sent (R44). -/
def State.send (ts : List Transfer) (s : State) : State := { s with sent := s.sent ++ ts }

/-- `respond(status, [])`: the one response word, with BIT = 0 (R9, R52). -/
def State.respond (st : Status) (s : State) : State := s.send [.resp (respWord st false)]

/-- `fail(code)`: `respond(code, [])` with no register written (R9, R105). -/
def State.fail (st : Status) (s : State) : State := s.respond st

/-- The register writes of a CONSTRUCT that the checker accepts (R68). -/
def State.load (o : PrbsOrder) (init : ShiftWord) (s : State) : State :=
  { s with
    valid := true
    order := o.field
    t1 := o.t1
    t2 := o.t2
    state := init
    life := .constructed }

/-- CONSTRUCT: check, then load or fail (R68, R69). -/
def construct (n : Nat) (seed : Option Seed) (s : State) : State :=
  match PrbsOrder.ofDegree n, check n seed with
  | some o, .ok => (s.load o (initState o seed)).respond .ok
  | _, code => s.fail code

/-- The bit at tap position `p` of `s`, which is `s[p-1]` (R7, R76). Position 0 does not exist; what is
read there is a free value (log entry 4). -/
def tapBit (p : OrderWord) (s : ShiftWord) : Bool :=
  if p = 0#5 then Config.noTapBit s else s.getLsbD (p.toNat - 1)

/-- The LFSR step (R79): the new state and the emitted bit, which is the feedback bit (R77, R78). The
shift is made in 31 bits; the bit it loses, the mask would have cleared. -/
def lfsrStep (n t1 t2 : OrderWord) (s : ShiftWord) : ShiftWord × Bool :=
  let f := tapBit t1 s ^^ tapBit t2 s
  (((s <<< 1) ||| (BitVec.ofBool f).setWidth 31) &&& mask n.toNat, f)

end Sys2Proof.Machine

namespace Sys2Proof

/-- The state after one step of an order's register (R79). -/
def PrbsOrder.next (o : PrbsOrder) (s : ShiftWord) : ShiftWord :=
  (Machine.lfsrStep o.field o.t1 o.t2 s).1

/-- The bit that one step of an order's register emits (R78, R79). -/
def PrbsOrder.bit (o : PrbsOrder) (s : ShiftWord) : Bool :=
  (Machine.lfsrStep o.field o.t1 o.t2 s).2

end Sys2Proof

namespace Sys2Proof.Machine

/-- Emitting one bit: STATE takes the step, LIFE becomes RUNNING (R21, R81). -/
def emit (s : State) : State × Bool :=
  ({ s with
      state := (lfsrStep s.order s.t1 s.t2 s.state).1
      life := .running },
   (lfsrStep s.order s.t1 s.t2 s.state).2)

/-- Emitting `count` bits, in emission order; each step reads the state the one before it left (R91). -/
def emitN : Nat → State → State × List Bool
  | 0, s => (s, [])
  | k + 1, s => ((emitN k (emit s).1).1, (emit s).2 :: (emitN k (emit s).1).2)

/-- `rst` between commands (R116): VALID and LIFE become 0, and the other four registers unspecified,
each a draw. DESIGN CHOICE: blocks of one system draw from places of their own, `N_INST` apart, so nothing
relates what two blocks draw (R112 is silent; log entry 3). No response is sent. -/
def State.applyReset (s : State) : State :=
  { s with
    valid := false
    order := Config.drawOrder s.draws
    t1 := Config.drawT1 s.draws
    t2 := Config.drawT2 s.draws
    state := Config.drawState s.draws
    life := .constructed
    draws := s.draws + Config.nInst
    awaitingReset := false }

/-- Power is applied: every register holds an arbitrary value until `rst` (R114; log entry 6). -/
def State.applyPower (s : State) : State :=
  { s with
    valid := Config.drawValid s.draws
    order := Config.drawOrder s.draws
    t1 := Config.drawT1 s.draws
    t2 := Config.drawT2 s.draws
    state := Config.drawState s.draws
    life := if Config.drawLife s.draws then .running else .constructed
    draws := s.draws + Config.nInst
    awaitingReset := true }

end Sys2Proof.Machine
end

