-- ==== Sys2Proof/Machine/Construct.lean ====
section
/-! DEFINITION. CONSTRUCT and CONSTRUCT.S (spec/40_construct.md rules R71, R72). -/

namespace Sys2Proof.Machine

/-- CONSTRUCT, default seed (R71). -/
def execConstruct (n : Nat) (s : State) : Host.Outcome State Fault Refusal :=
  .next (construct n none s)

/-- CONSTRUCT.S, seed given (R72). -/
def execConstructS (n : Nat) (seed : Seed) (s : State) : Host.Outcome State Fault Refusal :=
  .next (construct n (some seed) s)

end Sys2Proof.Machine
end

