-- ==== Sys2Proof/Machine/Generate.lean ====
section
/-! DEFINITION. GENERATE (spec/42_generate.md rule R91). -/

namespace Sys2Proof.Machine

/-- GENERATE (R91): fails without an instance, for a count of 0 too; else emits `count` bits, sent on
`bit_out` in emission order before the response word (R52). -/
def execGenerate (count : Nat) (s : State) : Host.Outcome State Fault Refusal :=
  if s.valid then
    .next (((emitN count s).1.send ((emitN count s).2.map Transfer.bitOut)).respond .ok)
  else .next (s.fail .errNotConstructed)

end Sys2Proof.Machine
end

