-- ==== Sys2Proof/Machine/NextBit.lean ====
section
/-! DEFINITION. NEXT_BIT (spec/41_next_bit.md rules R80, R81). -/

namespace Sys2Proof.Machine

/-- NEXT_BIT (R81): fails without an instance (R80); else emits one bit, answered in BIT. -/
def execNextBit (s : State) : Host.Outcome State Fault Refusal :=
  if s.valid then .next ((emit s).1.send [.resp (respWord .ok (emit s).2)])
  else .next (s.fail .errNotConstructed)

end Sys2Proof.Machine
end

