-- ==== Sys2Proof/Machine/Reserved.lean ====
section
/-! DEFINITION. The reserved operation, OP = 0b11 (spec/60_exceptions.md rule R104). -/

namespace Sys2Proof.Machine

/-- OP = 0b11 (R104): the status ERR_BAD_OP and nothing else. -/
def execReserved (s : State) : Host.Outcome State Fault Refusal := .next (s.fail .errBadOp)

end Sys2Proof.Machine
end

