-- ==== Sys2Proof/Machine/Dispatch.lean ====
section
/-! DEFINITION. The meaning of each command (spec/30_encoding.md rule R54), one arm per constructor. -/

namespace Sys2Proof.Machine

def exec (i : Instr) (s : State) : Host.Outcome State Fault Refusal :=
  match i with
  | .construct n => Sys2Proof.Machine.execConstruct n s
  | .constructS n seed => Sys2Proof.Machine.execConstructS n seed s
  | .nextBit => Sys2Proof.Machine.execNextBit s
  | .generate count => Sys2Proof.Machine.execGenerate count s
  | .reserved => Sys2Proof.Machine.execReserved s

end Sys2Proof.Machine
end

