-- ==== Sys2Proof/Machine/HostActions.lean ====
section
/-! DEFINITION. What the block does at one host action: a transaction (spec/30_encoding.md rule R44), a
reset (spec/70_reset_and_hazards.md rules R114-R118), or a run the spec says the model refuses. -/

namespace Sys2Proof.Machine

/-- The block at one host action, which has left the inbox already. -/
def perform (a : HostAction) (s : State) : Host.Outcome State Fault Refusal :=
  match a with
  | .command w => if s.awaitingReset then .refused .commandBeforeReset else exec (decode w) s
  | .reset => .next s.applyReset
  | .resetDuring _ => .refused .resetDuringCommand
  | .secondHost _ => .refused .concurrentHosts
  | .powerUp => .next s.applyPower

/-- Takes the oldest host action and performs it, in arrival order (R37). With none the block does not
act: it holds its registers unchanged (R2, R111). -/
def takeAction (s : State) : Host.Outcome State Fault Refusal :=
  match s.inbox with
  | [] => .next s
  | a :: rest => perform a { s with inbox := rest }

/-- The commands of a list, one after the other, each seeing what those before it did (R37). -/
def runCommands : List Instr → State → Host.Outcome State Fault Refusal
  | [], s => .next s
  | i :: is, s =>
    match exec i s with
    | .next s' => runCommands is s'
    | .fault r => .fault r
    | .refused r => .refused r

/-- `s` with the commands that a stream of interconnect words carries as the host's last actions (R33).
DESIGN CHOICE: the stream is taken whole, and one to three words left at its end are dropped, not held for
words of a later call (the spec gives them no fate; log entry 18). -/
def State.withBusWords (ws : List BusWord) (s : State) : State :=
  { s with inbox := s.inbox ++ (busCommands ws).map HostAction.command }

/-- `s` with a command word as the host's next action, to a block that has been reset. -/
def State.withCommand (w : CmdWord) (s : State) : State :=
  { s with inbox := .command w :: s.inbox, awaitingReset := false }

end Sys2Proof.Machine
end

