-- ==== Sys2Proof/Machine/Step.lean ====
section
/-! DEFINITION. One step of the machine: one host action, a transaction being one (spec/30_encoding.md rule
R44). The block fetches nothing (spec/10_state.md rule R26): commands arrive in the inbox. -/

namespace Sys2Proof.Machine

/-- One step (R37, R44). -/
def step (s : State) : Host.Outcome State Fault Refusal := takeAction s

/-- `s` with the command word of the opcode table's bits `w` as the host's next action, so that the very
next step runs it (log entry 1). -/
def State.withFetchWord (s : State) (nbits w : Nat) : State := s.withCommand (tableWord nbits w)

end Sys2Proof.Machine
end

