-- ==== Sys2Proof/Machine/Assembler.lean ====
section
/-! DEFINITION. The assembler's text syntax, one command a line (spec/30_encoding.md rules R57, R58). It is a
tool of the host, not part of the block. -/

namespace Sys2Proof.Machine

/-- What one line of assembler text stands for. -/
inductive AsmLine where
  /-- Nothing: blanks and a comment. -/
  | blank
  /-- One command. -/
  | command (i : Instr)
  /-- `.word128`: a raw command word. -/
  | word (w : CmdWord)
  /-- `prbs`, the one pseudo-operation (R58). -/
  | prbs (n : Nat) (seed : Option Seed) (count : Nat)
  deriving DecidableEq, Repr

/-- A finished token, if it has a character; characters are gathered last first. -/
def flushToken (gathered : List Char) : List (List Char) :=
  if gathered.isEmpty then [] else [gathered.reverse]

/-- The tokens of a line: words parted by blanks, a comma a token of its own, a comment from `;` on
left out (R57; log entry 9). -/
def tokens : List Char → List Char → List (List Char)
  | [], gathered => flushToken gathered
  | c :: cs, gathered =>
    if c = ';' then flushToken gathered
    else if c = ' ' ∨ c = '\t' then flushToken gathered ++ tokens cs []
    else if c = ',' then flushToken gathered ++ [[',']] ++ tokens cs []
    else tokens cs (c :: gathered)

/-- The value of a digit below `base`. -/
def digit (base : Nat) (c : Char) : Option Nat :=
  let v :=
    if '0' ≤ c ∧ c ≤ '9' then c.toNat - '0'.toNat
    else if 'a' ≤ c ∧ c ≤ 'f' then c.toNat - 'a'.toNat + 10
    else if 'A' ≤ c ∧ c ≤ 'F' then c.toNat - 'A'.toNat + 10
    else base
  if v < base then some v else none

/-- Digits after the value read so far; `_` may group them (R6). -/
def digits (base : Nat) : List Char → Nat → Option Nat
  | [], v => some v
  | c :: cs, v =>
    if c = '_' then digits base cs v
    else
      match digit base c with
      | some d => digits base cs (v * base + d)
      | none => none

/-- A numeral in a base: a digit, then digits. -/
def numeral (base : Nat) : List Char → Option Nat
  | [] => none
  | c :: cs => (digit base c).bind (digits base cs)

/-- A number: decimal, `0x` hex or `0b` binary (R57). -/
def number : List Char → Option Nat
  | '0' :: 'x' :: cs => numeral 16 cs
  | '0' :: 'b' :: cs => numeral 2 cs
  | cs => numeral 10 cs

/-- A hex number, with its `0x` (R57, R60). -/
def hexNumber : List Char → Option Nat
  | '0' :: 'x' :: cs => numeral 16 cs
  | _ => none

/-- A seed: a number, which may be negative, or `nonint` (R57). -/
def seedText : List Char → Option Seed
  | ['n', 'o', 'n', 'i', 'n', 't'] => some .nonInteger
  | '-' :: cs => (number cs).map (fun v => .integer (-(v : Int)))
  | cs => (number cs).map (fun v => .integer (v : Int))

/-- A command whose literals fit their fields; the assembler rejects another (R57). -/
def fitting (i : Instr) : Option AsmLine := if i.wellFormed then some (.command i) else none

/-- The line that tokens stand for; none where the assembler rejects it (R57, R58). DESIGN CHOICE: the
`<seed>` of `prbs <n>, <seed>, <count>` may be `nonint` too, which R58 does not say (log entry 9). -/
def assembleTokens : List (List Char) → Option AsmLine
  | [] => some .blank
  | [op] => if op = "nextbit".toList then fitting .nextBit else none
  | [op, a] =>
    if op = "construct".toList then (number a).bind (fun n => fitting (.construct n))
    else if op = "generate".toList then (number a).bind (fun c => fitting (.generate c))
    else if op = ".word128".toList then
      (hexNumber a).bind (fun v =>
        if v < 2 ^ 128 then some (.word (BitVec.ofNat 128 v)) else none)
    else none
  | [op, a, [','], b] =>
    if op = "construct.s".toList then
      (number a).bind (fun n => (seedText b).bind (fun sd => fitting (.constructS n sd)))
    else if op = "prbs".toList then
      (number a).bind (fun n => (number b).bind (fun c =>
        if n < 32 then some (.prbs n none c) else none))
    else none
  | [op, a, [','], b, [','], d] =>
    if op = "prbs".toList then
      (number a).bind (fun n => (seedText b).bind (fun sd => (number d).bind (fun c =>
        if n < 32 then some (.prbs n (some sd) c) else none)))
    else none
  | _ => none

/-- A line of assembler text (R57, R58). -/
def assemble (line : String) : Option AsmLine := assembleTokens (tokens line.toList [])

/-- The command word of a line that stands for one (R57). -/
def AsmLine.word? : AsmLine → Option CmdWord
  | .command i => some (encode i)
  | .word w => some w
  | .blank => none
  | .prbs _ _ _ => none

end Sys2Proof.Machine
end

