-- ==== Sys2Proof/Machine/Ports.lean ====
section
/-! DEFINITION. The port channels, one transfer at a time (spec/30_encoding.md rules R43, R44;
spec/70_reset_and_hazards.md rules R115, R116, R118, R120, R124). It lies below the transaction level that `step`
speaks of, and says of the handshake what the spec says of it: which item is offered, when a command is
accepted, what waiting and a reset during a command do. It says nothing of latency (R125; log entry 7). -/

namespace Sys2Proof.Machine

/-- What the host drives on the input ports at one clock edge (R43). -/
structure HostSignals where
  rst : Bool
  cmdValid : Bool
  cmd : CmdWord
  respReady : Bool
  bitReady : Bool
  deriving DecidableEq, Repr

/-- The block with the transfers that the command in progress still owes the host, next first. Its
`block.sent` holds what the host has taken. -/
structure PortState where
  block : State
  owed : List Transfer
  deriving DecidableEq, Repr

/-- `cmd_ready`: 0 while a command is in progress (R43, R120). -/
def PortState.cmdReady (p : PortState) : Bool := p.owed.isEmpty

/-- `bit_valid` and `bit_out`: the bit offered, if any (R43). -/
def PortState.bitOffered (p : PortState) : Option Bool :=
  match p.owed with
  | .bitOut b :: _ => some b
  | _ => none

/-- `resp_valid` and `resp`: the response word offered, if any (R43). -/
def PortState.respOffered (p : PortState) : Option RespWord :=
  match p.owed with
  | .resp w :: _ => some w
  | _ => none

/-- A block with no command in progress. -/
def PortState.idle (s : State) : PortState := ⟨s, []⟩

/-- Accepting a command: the block performs it and owes its bits and its response word (R44). DESIGN CHOICE:
its registers are written in full here, before any item moves (log entry 7). -/
def PortState.accept (w : CmdWord) (p : PortState) : Host.Outcome PortState Fault Refusal :=
  if p.block.awaitingReset then .refused .commandBeforeReset
  else
    match exec (decode w) p.block with
    | .next t =>
      .next ⟨{ t with sent := p.block.sent }, t.sent.drop p.block.sent.length⟩
    | .fault r => .fault r
    | .refused r => .refused r

/-- One clock edge. Reset abandons the command in progress; what the host has taken stands (R116,
R118). DESIGN CHOICE: at an edge with `rst` = 1 nothing moves on any channel, also where one has `valid` and
`ready` both 1: `rst` wins over R43, and an item offered at that edge is not among those "already transferred"
of R118 (the spec gives no precedence; log entry 17). An offered item moves when the host is ready for it and else stays offered (R43, R124). A
command is accepted only when none is in progress (R115, R120). -/
def PortState.edge (h : HostSignals) (p : PortState) : Host.Outcome PortState Fault Refusal :=
  if h.rst then .next (PortState.idle p.block.applyReset)
  else
    match p.owed with
    | [] => if h.cmdValid then p.accept h.cmd else .next p
    | .bitOut b :: rest =>
      if h.bitReady then .next ⟨p.block.send [.bitOut b], rest⟩ else .next p
    | .resp w :: rest =>
      if h.respReady then .next ⟨p.block.send [.resp w], rest⟩ else .next p

/-- Clock edges one after the other. -/
def PortState.edges : List HostSignals → PortState → Host.Outcome PortState Fault Refusal
  | [], p => .next p
  | h :: hs, p =>
    match p.edge h with
    | .next q => PortState.edges hs q
    | .fault r => .fault r
    | .refused r => .refused r

end Sys2Proof.Machine
end

