-- ==== Sys2Proof/Machine/System.lean ====
section
/-! DEFINITION. A system of several blocks (spec/60_exceptions.md rule R112). Each block has its own registers,
its own host actions and so its own reset, and its own ports with their own `rst`. Nothing joins two blocks:
whatever happens to one is said of that block alone. -/

namespace Sys2Proof.Machine

/-- What happens to block `k` of a system: that block changes as it does alone, every other block stays
(R112). -/
def onBlock {Block : Type} (f : Block → Host.Outcome Block Fault Refusal) (system : List Block)
    (k : Fin system.length) : Host.Outcome (List Block) Fault Refusal :=
  match f system[k] with
  | .next b => .next (system.set k b)
  | .fault r => .fault r
  | .refused r => .refused r

/-- One command to block `k` of a system (R112). -/
def execIn (system : List State) (k : Fin system.length) (i : Instr) :
    Host.Outcome (List State) Fault Refusal := onBlock (exec i) system k

/-- One step of block `k` of a system: the next action of that block's own host, its own reset among them
(R112). -/
def stepIn (system : List State) (k : Fin system.length) : Host.Outcome (List State) Fault Refusal :=
  onBlock step system k

/-- One clock edge of block `k` of a system, with the signals on that block's own ports, its own `rst` among
them (R43, R112). -/
def edgeIn (system : List PortState) (k : Fin system.length) (h : HostSignals) :
    Host.Outcome (List PortState) Fault Refusal := onBlock (PortState.edge h) system k

/-- The system after reset: `N_INST` blocks, block `k` drawing its unspecified values from place `k` on, so
that no two blocks ever draw the same one (R112; log entries 3 and 16). -/
def systemReset : List State :=
  (List.range Config.nInst).map (fun k => { State.reset with draws := k })

/-- The same blocks with their ports: no command in progress on any (R112, R116). -/
def systemPorts : List PortState := systemReset.map PortState.idle

end Sys2Proof.Machine
end

