-- ==== Sys2Proof/Machine/HostSide.lean ====
section
/-! DEFINITION. The host's side of the command port: the seed bridge (spec/30_encoding.md rule R49), the
abstract response of a transaction (rule R52), and the `prbs` driver (spec/42_generate.md rule R94). None of it
is part of the block. -/

namespace Sys2Proof.Machine

/-- The host-side bridge: an integer that SEED cannot hold is saturated, and a value that is no integer
stays tagged so (R49). -/
def bridgeSeed : Seed → Seed
  | .nonInteger => .nonInteger
  | .integer v =>
    if 9223372036854775807 < v then .integer 9223372036854775807
    else if v < -9223372036854775808 then .integer (-9223372036854775808)
    else .integer v

/-- The abstract response `(status, bits)` of a transaction (R44, R52). -/
structure Response where
  status : Status
  bits : List Bool
  deriving DecidableEq, Repr

/-- The bits that lead a list of transfers, and the transfers after them. -/
def leadingBits : List Transfer → List Bool × List Transfer
  | .bitOut b :: rest => (b :: (leadingBits rest).1, (leadingBits rest).2)
  | ts => ([], ts)

/-- The abstract response that one command's transfers amount to (R52): `[BIT]` for a NEXT_BIT that
succeeds, the bits sent on `bit_out` for a GENERATE, `[]` for every other command. -/
def abstractResponse (i : Instr) (ts : List Transfer) : Host.Outcome Response Fault Refusal :=
  match leadingBits ts with
  | (bits, [.resp w]) =>
    match decodeResponse w with
    | .next (st, b) =>
      match i with
      | .construct _ => .next ⟨st, []⟩
      | .constructS _ _ => .next ⟨st, []⟩
      | .nextBit => .next ⟨st, if st = .ok then [b] else []⟩
      | .generate _ => .next ⟨st, bits⟩
      | .reserved => .next ⟨st, []⟩
    | .fault r => .fault r
    | .refused r => .refused r
  | _ => .fault .incompleteTransaction

/-- One transaction as the host sees it: the command's effect and its abstract response (R44). -/
def transact (i : Instr) (s : State) : Host.Outcome (State × Response) Fault Refusal :=
  match exec i s with
  | .next t =>
    match abstractResponse i (t.sent.drop s.sent.length) with
    | .next r => .next (t, r)
    | .fault r => .fault r
    | .refused r => .refused r
  | .fault r => .fault r
  | .refused r => .refused r

/-- What the `prbs` driver returns (R94). -/
inductive DriverResult where
  /-- The construction failed with this status; no GENERATE was issued. -/
  | failure (st : Status)
  /-- The bits of the run. -/
  | bits (bs : List Bool)
  deriving DecidableEq, Repr

/-- The counts of the GENERATEs that make a run of `count` bits: one when the count fits COUNT, else
several that add up to it (R93, R94). -/
def generateCounts (count : Nat) : List Nat :=
  if count ≤ 4294967295 then [count]
  else List.replicate (count / 4294967295) 4294967295 ++ [count % 4294967295]

/-- GENERATEs one after the other, their bit lists joined in order (R93). -/
def generateAll : List Nat → State → Host.Outcome (State × List Bool) Fault Refusal
  | [], s => .next (s, [])
  | c :: cs, s =>
    match transact (.generate c) s with
    | .next (s1, r) =>
      match generateAll cs s1 with
      | .next (s2, bs) => .next (s2, r.bits ++ bs)
      | .fault e => .fault e
      | .refused e => .refused e
    | .fault e => .fault e
    | .refused e => .refused e

/-- CONSTRUCT without a seed, CONSTRUCT.S with one (R55). -/
def constructCommand (n : Nat) : Option Seed → Instr
  | none => .construct n
  | some seed => .constructS n seed

/-- The driver surface `prbs(n, [seed], count)` (R94): construct, the seed sent through
the bridge (R49), and only if that succeeded generate. -/
def prbs (n : Nat) (seed : Option Seed) (count : Nat) (s : State) :
    Host.Outcome (State × DriverResult) Fault Refusal :=
  match transact (constructCommand n (seed.map bridgeSeed)) s with
  | .next (s1, r1) =>
    if r1.status = .ok then
      match generateAll (generateCounts count) s1 with
      | .next (s2, bs) => .next (s2, .bits bs)
      | .fault e => .fault e
      | .refused e => .refused e
    else .next (s1, .failure r1.status)
  | .fault e => .fault e
  | .refused e => .refused e

end Sys2Proof.Machine
end

