-- ==== Sys2Proof/Safety.lean ====
section
/-! DEFINITION. What statements about runs are made of: the invariant of spec/10_state.md rule R20, what is
the same of two states, and which responses the block may send. -/

namespace Sys2Proof.Machine

/-- The registers hold an instance of an order (R19, R20): ORDER and the taps are the order's, and
`0 < STATE <= 2^n - 1`. -/
abbrev State.Holds (o : PrbsOrder) (s : State) : Prop :=
  s.valid = true ∧ s.order = o.field ∧ s.t1 = o.t1 ∧ s.t2 = o.t2 ∧
    0 < s.state.toNat ∧ s.state.toNat ≤ 2 ^ o.degree - 1

/-- `INV`, the invariant of R20: no generator exists, or the registers hold one. -/
abbrev State.Inv (s : State) : Prop := s.valid = false ∨ ∃ o ∈ PrbsOrder.all, s.Holds o

/-- A response word the block may send: STATUS is not 7, and `[7:4]` is 0 (R52, R101). -/
def Transfer.sound : Transfer → Bool
  | .bitOut _ => true
  | .resp w => decide (w.extractLsb' 4 4 = 0#4) && decide (w.extractLsb' 0 3 ≠ 7#3)

/-- The machine's invariant: after reset the registers satisfy `INV` (R20; before it they are arbitrary,
R114), and every response word sent is one the block may send. -/
abbrev State.Good (s : State) : Prop :=
  (s.awaitingReset = false → s.Inv) ∧ ∀ t ∈ s.sent, t.sound = true

/-- The same six registers (R15). -/
abbrev SameRegisters (s t : State) : Prop :=
  t.valid = s.valid ∧ t.order = s.order ∧ t.t1 = s.t1 ∧ t.t2 = s.t2 ∧ t.state = s.state ∧
    t.life = s.life

/-- The same fields of the model's own that no command may touch: what the host does next, the draw
counter and the power-up mark. -/
abbrev SameSurroundings (s t : State) : Prop :=
  t.inbox = s.inbox ∧ t.draws = s.draws ∧ t.awaitingReset = s.awaitingReset

/-- Two states that no host can tell apart by commands (R21, R23, R24): both without a generator, or both
with one of the same order, taps and shift-register contents. LIFE may differ, and so may the registers
that are unspecified without a generator. -/
abbrev Alike (s t : State) : Prop :=
  s.valid = t.valid ∧
    (s.valid = true → s.order = t.order ∧ s.t1 = t.t1 ∧ s.t2 = t.t2 ∧ s.state = t.state)

/-- What a state has sent beyond what an earlier state had sent. -/
def State.sentSince (s t : State) : List Transfer := t.sent.drop s.sent.length

/-- A command is in progress on the ports: the block is not ready for another, and what the host has taken
followed by what is still owed is all that `t` has sent (R44, R120). -/
abbrev PortState.InProgress (q : PortState) (t : State) : Prop :=
  q.cmdReady = false ∧ q.block.sent ++ q.owed = t.sent

/-- A row of the table of R13: an order n and its tap positions t1 and t2, as the spec writes them. -/
structure TapRow where
  n : Nat
  t1 : Nat
  t2 : Nat
  deriving DecidableEq, Repr

/-- The table of R13. -/
def tapRows : List TapRow :=
  [⟨7, 7, 6⟩, ⟨9, 9, 5⟩, ⟨11, 11, 9⟩, ⟨15, 15, 14⟩, ⟨23, 23, 18⟩, ⟨31, 31, 28⟩]

/-- The LFSR step of a row's order and taps (R79): the new state and the emitted bit. -/
def TapRow.step (r : TapRow) (x : ShiftWord) : ShiftWord × Bool :=
  lfsrStep (BitVec.ofNat 5 r.n) (BitVec.ofNat 5 r.t1) (BitVec.ofNat 5 r.t2) x

/-- The register's contents after `k` steps from `x`. -/
def TapRow.after (r : TapRow) (k : Nat) (x : ShiftWord) : ShiftWord :=
  (fun y => (r.step y).1)^[k] x

/-- The bit emitted by the step after the first `k` steps from `x` (bit number `k`, from 0). -/
def TapRow.bitAt (r : TapRow) (k : Nat) (x : ShiftWord) : Bool := (r.step (r.after k x)).2

/-- A value the register may hold with an instance of the row's order: `0 < x <= 2^n - 1` (R19). -/
abbrev TapRow.Legal (r : TapRow) (x : ShiftWord) : Prop := 0 < x.toNat ∧ x.toNat ≤ 2 ^ r.n - 1

/-- The registers hold an instance of the row's order (R17, R18, R20). -/
abbrev TapRow.HeldBy (r : TapRow) (s : State) : Prop :=
  s.valid = true ∧ s.order = BitVec.ofNat 5 r.n ∧ s.t1 = BitVec.ofNat 5 r.t1 ∧
    s.t2 = BitVec.ofNat 5 r.t2 ∧ r.Legal s.state

/-- The state that a successful construction of the row's order leaves, its register holding `x`, with its
one response word sent (R68). -/
def TapRow.started (r : TapRow) (x : ShiftWord) (s : State) : State :=
  { s with
    valid := true
    order := BitVec.ofNat 5 r.n
    t1 := BitVec.ofNat 5 r.t1
    t2 := BitVec.ofNat 5 r.t2
    state := x
    life := .constructed
    sent := s.sent ++ [.resp 0x00#8] }

/-- How many bits a command emits when an instance exists (R81, R91). -/
def emittedBy : Instr → Nat
  | .construct _ => 0
  | .constructS _ _ => 0
  | .nextBit => 1
  | .generate count => count
  | .reserved => 0

/-- A command that emits bits: NEXT_BIT or GENERATE. -/
def emits : Instr → Bool
  | .construct _ => false
  | .constructS _ _ => false
  | .nextBit => true
  | .generate _ => true
  | .reserved => false

/-- A CONSTRUCT or CONSTRUCT.S that the validity checker accepts (R68). -/
def startsInstance : Instr → Bool
  | .construct n => decide (check n none = .ok)
  | .constructS n seed => decide (check n (some seed) = .ok)
  | .nextBit => false
  | .generate _ => false
  | .reserved => false

end Sys2Proof.Machine
end

