-- ==== Sys2Proof/Certificates/Slice0/Obligations.lean ====
section
/-! DEFINITION. The statements for the provers. Each docstring names the rule of spec/ the statement
formalises. Where a rule speaks of fields of a command word, the statement reads the word's bits
itself. -/

open Sys2Proof Sys2Proof.Machine

/-! ### Encoding -/

/-- R60: the worked encodings, their texts, and the two response bytes. -/
def Obligations.WorkedEncodingsDecodeAsWritten : Prop :=
  (∀ e ∈ [("construct 7", 0x0000000000000000000000000000001C#128, Instr.construct 7),
      ("construct.s 9, 511", 0x00000000000001FF00000000000000A4#128, .constructS 9 (.integer 511)),
      ("construct.s 7, -1", 0xFFFFFFFFFFFFFFFF000000000000009C#128,
        .constructS 7 (.integer (-1))),
      ("construct.s 7, nonint", 0x0000000000000000000000000000019C#128,
        .constructS 7 .nonInteger),
      ("construct.s 31, 0x80000000", 0x000000008000000000000000000000FC#128,
        .constructS 31 (.integer 2147483648)),
      ("nextbit", 0x00000000000000000000000000000001#128, .nextBit),
      ("generate 7", 0x00000000000000000000000700000002#128, .generate 7)],
    assemble e.1 = some (.command e.2.2) ∧ encode e.2.2 = e.2.1 ∧ decode e.2.1 = e.2.2) ∧
  assemble ".word128 0x3" = some (.word 0x00000000000000000000000000000003#128) ∧
  decode 0x00000000000000000000000000000003#128 = .reserved ∧
  encode .reserved = 0x00000000000000000000000000000003#128 ∧
  respWord .ok true = 0x08#8 ∧ respWord .errSeedRange false = 0x03#8

/-- Decoding the word of a well-formed command gives the command back, and every word decodes to a
well-formed command. -/
def Obligations.DecodeOfEncodeIsTheCommand : Prop :=
  (∀ i : Instr, i.wellFormed = true → decode (encode i) = i) ∧
  (∀ w : CmdWord, (decode w).wellFormed = true)

/-- R51: words that agree on the bits their operation reads are the same command. -/
def Obligations.UnreadBitsAreIgnored : Prop :=
  (∀ w w' : CmdWord, w.extractLsb' 0 2 = 0b00#2 → w'.extractLsb' 0 2 = 0b00#2 →
    w.extractLsb' 2 5 = w'.extractLsb' 2 5 → w.getLsbD 7 = w'.getLsbD 7 →
    (w.getLsbD 7 = true → w.getLsbD 8 = w'.getLsbD 8) →
    (w.getLsbD 7 = true → w.getLsbD 8 = false → w.extractLsb' 64 64 = w'.extractLsb' 64 64) →
    decode w = decode w') ∧
  (∀ w w' : CmdWord, w.extractLsb' 0 2 = 0b01#2 → w'.extractLsb' 0 2 = 0b01#2 →
    decode w = decode w') ∧
  (∀ w w' : CmdWord, w.extractLsb' 0 2 = 0b10#2 → w'.extractLsb' 0 2 = 0b10#2 →
    w.extractLsb' 32 32 = w'.extractLsb' 32 32 → decode w = decode w') ∧
  (∀ w w' : CmdWord, w.extractLsb' 0 2 = 0b11#2 → w'.extractLsb' 0 2 = 0b11#2 →
    decode w = decode w')

/-- R54: the dispatch on OP with the operands each operation takes from the word, and the outcome that
every command word has. -/
def Obligations.EveryWordDispatchesToOneOutcome : Prop :=
  (∀ w : CmdWord,
    (w.extractLsb' 0 2 = 0b00#2 → w.getLsbD 7 = false →
      decode w = .construct (w.extractLsb' 2 5).toNat) ∧
    (w.extractLsb' 0 2 = 0b00#2 → w.getLsbD 7 = true → w.getLsbD 8 = true →
      decode w = .constructS (w.extractLsb' 2 5).toNat .nonInteger) ∧
    (w.extractLsb' 0 2 = 0b00#2 → w.getLsbD 7 = true → w.getLsbD 8 = false →
      decode w = .constructS (w.extractLsb' 2 5).toNat (.integer (w.extractLsb' 64 64).toInt)) ∧
    (w.extractLsb' 0 2 = 0b01#2 → decode w = .nextBit) ∧
    (w.extractLsb' 0 2 = 0b10#2 → decode w = .generate (w.extractLsb' 32 32).toNat) ∧
    (w.extractLsb' 0 2 = 0b11#2 → decode w = .reserved)) ∧
  (∀ (w : CmdWord) (s : State), ∃ t, exec (decode w) s = .next t)

/-- The opcode map of R55: exactly one row matches a command word, and it is the row of the command that
the word decodes to. -/
def Obligations.OneOpcodeRowMatchesEachWord : Prop :=
  ∀ w : CmdWord,
    (opcodeMap.filter (fun r => r.hits w)).map OpcodeRow.mnemonic = [(decode w).mnemonic]

/-- R33: interconnect word k carries `cmd[32k+31:32k]`, words go in the order 0, 1, 2, 3, and a command
of which fewer than four words have arrived is not acted on. -/
def Obligations.FourBusWordsCarryOneCommand : Prop :=
  (∀ (ws : List CmdWord) (tail : List BusWord) (s : State), tail.length < 4 →
    (s.withBusWords ((ws.flatMap (fun w => [w.extractLsb' 0 32, w.extractLsb' 32 32,
        w.extractLsb' 64 32, w.extractLsb' 96 32])) ++ tail)).inbox
      = s.inbox ++ ws.map HostAction.command) ∧
  (∀ tail : List BusWord, tail.length < 4 → decodeBus tail = .error .incompleteCommand)

/-! ### CONSTRUCT and CONSTRUCT.S -/

/-- R62: the status of the validity checker, case by case. -/
def Obligations.ValidityCheckerStatuses : Prop :=
  (∀ (n : Nat) (seed : Option Seed), n ∉ [7, 9, 11, 15, 23, 31] → check n seed = .errOrder) ∧
  (∀ n ∈ [7, 9, 11, 15, 23, 31],
    check n none = .ok ∧
    check n (some .nonInteger) = .errSeedType ∧
    ∀ v : Int,
      (v ≤ 0 → check n (some (.integer v)) = .errSeedNonpos) ∧
      (v > 2 ^ n - 1 → check n (some (.integer v)) = .errSeedRange) ∧
      (0 < v → v ≤ 2 ^ n - 1 → check n (some (.integer v)) = .ok))

/-- R63: a CONSTRUCT or CONSTRUCT.S whose ORDER is not in `ORDERS` fails with ERR_ORDER, whatever its
other bits hold; nothing else happens. -/
def Obligations.ReservedOrderFails : Prop :=
  ∀ (w : CmdWord) (s : State), w.extractLsb' 0 2 = 0b00#2 →
    (w.extractLsb' 2 5).toNat ∉ [7, 9, 11, 15, 23, 31] →
    exec (decode w) s = .next { s with sent := s.sent ++ [.resp 0x04#8] }

/-- R64: with a legal order and SP = 0 the block starts an instance from the all-ones state, whatever ST
and SEED hold. -/
def Obligations.NoSeedStartsFromAllOnes : Prop :=
  ∀ r ∈ tapRows, ∀ (w : CmdWord) (s : State), w.extractLsb' 0 2 = 0b00#2 →
    w.extractLsb' 2 5 = BitVec.ofNat 5 r.n → w.getLsbD 7 = false →
    exec (decode w) s = .next (r.started (BitVec.ofNat 31 (2 ^ r.n - 1)) s)

/-- R65: with a legal order and SP = 1, the three seed tests in the spec's order, on the whole signed
seed; a seed that passes them becomes the state. -/
def Obligations.GivenSeedIsCheckedThenLoaded : Prop :=
  ∀ r ∈ tapRows, ∀ (w : CmdWord) (s : State), w.extractLsb' 0 2 = 0b00#2 →
    w.extractLsb' 2 5 = BitVec.ofNat 5 r.n → w.getLsbD 7 = true →
    (w.getLsbD 8 = true →
      exec (decode w) s = .next { s with sent := s.sent ++ [.resp 0x01#8] }) ∧
    (w.getLsbD 8 = false → (w.extractLsb' 64 64).toInt ≤ 0 →
      exec (decode w) s = .next { s with sent := s.sent ++ [.resp 0x02#8] }) ∧
    (w.getLsbD 8 = false → (w.extractLsb' 64 64).toInt > 2 ^ r.n - 1 →
      exec (decode w) s = .next { s with sent := s.sent ++ [.resp 0x03#8] }) ∧
    (w.getLsbD 8 = false → 0 < (w.extractLsb' 64 64).toInt →
      (w.extractLsb' 64 64).toInt ≤ 2 ^ r.n - 1 →
      exec (decode w) s = .next (r.started (w.extractLsb' 64 31) s))

/-- R67, R68: a construction that the checker accepts loads ORDER, the taps and the initial state, makes
VALID 1 and LIFE CONSTRUCTED, whatever the registers held, and emits no bit. -/
def Obligations.AcceptedConstructionLoadsEveryRegister : Prop :=
  ∀ (n : Nat) (s : State),
    (check n none = .ok → ∃ r ∈ tapRows, r.n = n ∧
      exec (.construct n) s = .next (r.started (BitVec.ofNat 31 (2 ^ n - 1)) s)) ∧
    (∀ seed : Seed, check n (some seed) = .ok → ∃ r ∈ tapRows, r.n = n ∧
      ∃ v : Nat, seed = .integer v ∧ 0 < v ∧ v < 2 ^ n ∧
        exec (.constructS n seed) s = .next (r.started (BitVec.ofNat 31 v) s) ∧
        (BitVec.ofNat 31 v).toNat = v)

/-- R69: a construction that the checker refuses answers with the checker's code and writes no register;
the next NEXT_BIT answers, and leaves the registers, as if it had not been issued. -/
def Obligations.RefusedConstructionWritesNothing : Prop :=
  ∀ (n : Nat) (seed : Option Seed) (s : State), check n seed ≠ .ok →
    exec (constructCommand n seed) s = .next { s with sent := s.sent ++ [.resp (respWord (check n seed) false)] } ∧
    ∃ a b x, runCommands [constructCommand n seed, .nextBit] s = .next a ∧ exec .nextBit s = .next b ∧
      SameRegisters a b ∧ b.sent = s.sent ++ [x] ∧
      a.sent = s.sent ++ [.resp (respWord (check n seed) false), x]

/-- R70: after a successful CONSTRUCT or CONSTRUCT.S the instance invariant holds, with VALID = 1. -/
def Obligations.AcceptedConstructionEstablishesInvariant : Prop :=
  ∀ (i : Instr) (s : State), startsInstance i = true →
    ∃ t, exec i s = .next t ∧ ∃ r ∈ tapRows, r.HeldBy t

/-- R66: the sign and range tests exclude each other, the accepted integer seeds are 1 to 2^n - 1, and the
host-side bridge's saturation (R49) keeps the status of every integer while making it fit SEED. -/
def Obligations.SaturatingBridgeKeepsTheStatus : Prop :=
  (∀ r ∈ tapRows, ∀ v : Int,
    ¬ (v ≤ 0 ∧ v > 2 ^ r.n - 1) ∧
    (check r.n (some (.integer v)) = .ok ↔ 1 ≤ v ∧ v ≤ 2 ^ r.n - 1)) ∧
  (∀ (n : Nat) (v : Int),
    (bridgeSeed (.integer v)).wellFormed = true ∧
    check n (some (bridgeSeed (.integer v))) = check n (some (.integer v)))

/-- R74: the accepted seeds and the smallest rejected one, order by order. -/
def Obligations.SeedBoundsOfEachOrder : Prop :=
  ∀ e ∈ [((7 : Nat), (127 : Int)), (9, 511), (11, 2047), (15, 32767), (23, 8388607),
      (31, 2147483647)],
    (∀ v : Int, check e.1 (some (.integer v)) = .ok ↔ 1 ≤ v ∧ v ≤ e.2) ∧
    check e.1 (some (.integer (e.2 + 1))) = .errSeedRange ∧
    check e.1 (some (.integer 0)) = .errSeedNonpos

/-- R75: the default seed and the seed 2^n - 1 leave the same state with the same response, and every
later run is the same. -/
def Obligations.DefaultSeedIsTheAllOnesSeed : Prop :=
  ∀ r ∈ tapRows, ∀ (s : State) (later : List Instr),
    exec (.constructS r.n (.integer (2 ^ r.n - 1))) s = exec (.construct r.n) s ∧
    runCommands (.constructS r.n (.integer (2 ^ r.n - 1)) :: later) s
      = runCommands (.construct r.n :: later) s

/-- R73: what is sent after a successful construction depends on it and the later commands alone, not on
the state before. -/
def Obligations.SequenceDependsOnlyOnConstruction : Prop :=
  ∀ (i : Instr) (later : List Instr) (s1 s2 : State), startsInstance i = true →
    ∃ t1 t2, runCommands (i :: later) s1 = .next t1 ∧ runCommands (i :: later) s2 = .next t2 ∧
      SameRegisters t1 t2 ∧ s1.sentSince t1 = s2.sentSince t2

/-- R36: repeating a successful construction leaves the same registers, and a GENERATE of 0 bits changes no
register; two NEXT_BITs answer with successive bits of the sequence. -/
def Obligations.RepeatedCommandsAndTheirEffects : Prop :=
  (∀ (i : Instr) (s : State), startsInstance i = true →
    ∃ t u, exec i s = .next t ∧ exec i t = .next u ∧ SameRegisters t u) ∧
  (∀ s : State, ∃ t, exec (.generate 0) s = .next t ∧ SameRegisters s t) ∧
  (∀ r ∈ tapRows, ∀ s : State, r.HeldBy s → ∃ t, runCommands [.nextBit, .nextBit] s = .next t ∧
    t.sent = s.sent ++ [.resp (respWord .ok (r.bitAt 0 s.state)),
      .resp (respWord .ok (r.bitAt 1 s.state))])

/-! ### NEXT_BIT -/

/-- R79: the emitted bit is the XOR of the two tapped bits, and the new state bit by bit. -/
def Obligations.StepShiftsInTheFeedbackBit : Prop :=
  ∀ r ∈ tapRows, ∀ x : ShiftWord,
    (r.step x).2 = (x.getLsbD (r.t1 - 1) ^^ x.getLsbD (r.t2 - 1)) ∧
    (r.step x).1.getLsbD 0 = (r.step x).2 ∧
    (∀ i, 1 ≤ i → i ≤ r.n - 1 → (r.step x).1.getLsbD i = x.getLsbD (i - 1)) ∧
    (∀ j, r.n ≤ j → j ≤ 30 → (r.step x).1.getLsbD j = false)

/-- R80: NEXT_BIT with VALID = 0 answers ERR_NOT_CONSTRUCTED, whatever the other registers hold, and
nothing else happens. -/
def Obligations.NextBitWithoutInstanceFails : Prop :=
  ∀ (w : CmdWord) (s : State), w.extractLsb' 0 2 = 0b01#2 → s.valid = false →
    exec (decode w) s = .next { s with sent := s.sent ++ [.resp 0x05#8] }

/-- R81, R82: with VALID = 1 NEXT_BIT always succeeds. STATE takes one step, LIFE becomes RUNNING, the
response carries the feedback bit, and nothing else changes. From all ones the bit is 0; from the top bit
alone it is 1 and the new state is 1. The tap indices of an instance are below ORDER. -/
def Obligations.NextBitEmitsTheFeedbackBit : Prop :=
  (∀ w : CmdWord, w.extractLsb' 0 2 = 0b01#2 → decode w = .nextBit) ∧
  (∀ s : State, s.valid = true →
    exec .nextBit s = .next { s with
      state := (lfsrStep s.order s.t1 s.t2 s.state).1
      life := .running
      sent := s.sent ++
        [.resp (if (lfsrStep s.order s.t1 s.t2 s.state).2 then 0x08#8 else 0x00#8)] }) ∧
  (∀ s : State, s.valid = false →
    exec .nextBit s = .next { s with sent := s.sent ++ [.resp 0x05#8] }) ∧
  (∀ r ∈ tapRows,
    (r.step (BitVec.ofNat 31 (2 ^ r.n - 1))).2 = false ∧
    r.step (BitVec.ofNat 31 (2 ^ (r.n - 1))) = (1#31, true)) ∧
  assemble "nextbit" = some (.command .nextBit) ∧
  (∃ t, runCommands [.construct 7, .nextBit] State.reset = .next t ∧ t.state = 0x7E#31 ∧
    t.sent = [.resp 0x00#8, .resp 0x00#8]) ∧
  (∀ r ∈ tapRows, ∀ s : State, r.HeldBy s →
    1 ≤ s.t1.toNat ∧ s.t1.toNat - 1 < s.order.toNat ∧
    1 ≤ s.t2.toNat ∧ s.t2.toNat - 1 < s.order.toNat)

/-- R83: a step keeps the register within the order's width, and maps zero to zero with the bit 0. -/
def Obligations.StepKeepsTheWidth : Prop :=
  ∀ r ∈ tapRows,
    (∀ x : ShiftWord, x.toNat < 2 ^ r.n →
      (r.step x).1.toNat < 2 ^ r.n ∧ ∀ j, r.n ≤ j → (r.step x).1.getLsbD j = false) ∧
    r.step 0#31 = (0#31, false)

/-- R84: a step from a nonzero register of the order's width gives a nonzero one, so no run of NEXT_BITs and
GENERATEs from an instance reaches zero. -/
def Obligations.StateIsNeverAllZero : Prop :=
  ∀ r ∈ tapRows,
    (∀ x : ShiftWord, 0 < x.toNat → x.toNat < 2 ^ r.n → (r.step x).1 ≠ 0#31) ∧
    (∀ (s : State) (cmds : List Instr), r.HeldBy s → (∀ i ∈ cmds, emits i = true) →
      ∃ t, runCommands cmds s = .next t ∧ t.state ≠ 0#31)

/-- R85: a step permutes the nonzero values of the order's width, with the predecessor the spec gives, and
every value lies on a cycle. -/
def Obligations.StepIsAPermutation : Prop :=
  ∀ r ∈ tapRows, ∀ y : ShiftWord, r.Legal y →
    r.Legal (r.step y).1 ∧
    (∃! x : ShiftWord, r.Legal x ∧ (r.step x).1 = y) ∧
    (∃! b : Bool,
      (r.step ((y >>> 1) ||| ((BitVec.ofBool b).setWidth 31 <<< (r.n - 1)))).2 = y.getLsbD 0) ∧
    (∀ b : Bool,
      (r.step ((y >>> 1) ||| ((BitVec.ofBool b).setWidth 31 <<< (r.n - 1)))).2 = y.getLsbD 0 →
      (r.step ((y >>> 1) ||| ((BitVec.ofBool b).setWidth 31 <<< (r.n - 1)))).1 = y) ∧
    ∃ k, 0 < k ∧ r.after k y = y

/-- R86: for every order and accepted seed the state sequence and the bit sequence have exact period
2^n - 1, and the states visited are all the nonzero ones. -/
def Obligations.PeriodIsMaximal : Prop :=
  ∀ r ∈ tapRows, ∀ x : ShiftWord, r.Legal x →
    r.after (2 ^ r.n - 1) x = x ∧
    (∀ k, 0 < k → k < 2 ^ r.n - 1 → r.after k x ≠ x) ∧
    (∀ y : ShiftWord, r.Legal y → ∃ k, k < 2 ^ r.n - 1 ∧ r.after k x = y) ∧
    (∀ k, r.bitAt (k + (2 ^ r.n - 1)) x = r.bitAt k x) ∧
    (∀ p, 0 < p → p < 2 ^ r.n - 1 → ∃ k, r.bitAt (k + p) x ≠ r.bitAt k x)

/-- R87: each emitted bit is the XOR of the bits emitted t1 and t2 steps before it, the seed's bits standing
for the bits before the first; the register holds the last emitted bits, the most recent in bit 0. -/
def Obligations.EmittedBitsFollowTheRecurrence : Prop :=
  ∀ r ∈ tapRows, ∀ (x : ShiftWord) (a : Int → Bool),
    (∀ k : Nat, a k = r.bitAt k x) →
    (∀ p : Nat, 1 ≤ p → p ≤ r.n → a (-(p : Int)) = x.getLsbD (p - 1)) →
    (∀ k : Nat, a k = (a ((k : Int) - r.t1) ^^ a ((k : Int) - r.t2))) ∧
    (∀ k i : Nat, i ≤ r.n - 1 → (r.after (k + 1) x).getLsbD i = a ((k : Int) - i))

/-- R88: in one period there are 2^(n-1) ones and 2^(n-1) - 1 zeros. -/
def Obligations.OnePeriodIsBalanced : Prop :=
  ∀ r ∈ tapRows, ∀ x : ShiftWord, r.Legal x →
    (List.range (2 ^ r.n - 1)).countP (fun k => r.bitAt k x) = 2 ^ (r.n - 1) ∧
    (List.range (2 ^ r.n - 1)).countP (fun k => !r.bitAt k x) = 2 ^ (r.n - 1) - 1

/-- R90: the golden vector of PRBS7 from the default seed. -/
def Obligations.GoldenVectorOfPrbs7 : Prop :=
  ∃ t, runCommands [.construct 7, .generate 7] State.reset = .next t ∧
    t.sent = [.resp 0x00#8, .bitOut false, .bitOut false, .bitOut false, .bitOut false,
      .bitOut false, .bitOut false, .bitOut true, .resp 0x00#8] ∧
    (List.range 7).map (fun k => (TapRow.mk 7 7 6).after (k + 1) 0x7F#31)
      = [0x7E#31, 0x7C#31, 0x78#31, 0x70#31, 0x60#31, 0x40#31, 0x01#31] ∧
    t.state = 0x01#31

/-! ### GENERATE and the driver -/

/-- R91: GENERATE of the count in COUNT. Without an instance it fails, for a count of 0 too. With one it
succeeds: STATE takes that many steps, LIFE becomes RUNNING unless the count is 0, the bits go out in
emission order and then the response word with BIT = 0, and nothing else changes. -/
def Obligations.GenerateEmitsCountBits : Prop :=
  (∀ w : CmdWord, w.extractLsb' 0 2 = 0b10#2 →
    decode w = .generate (w.extractLsb' 32 32).toNat) ∧
  (∀ (count : Nat) (s : State), s.valid = false →
    exec (.generate count) s = .next { s with sent := s.sent ++ [.resp 0x05#8] }) ∧
  (∀ r ∈ tapRows, ∀ (count : Nat) (s : State), r.HeldBy s →
    exec (.generate count) s = .next { s with
      state := r.after count s.state
      life := if count = 0 then s.life else .running
      sent := s.sent ++ (List.range count).map (fun k => .bitOut (r.bitAt k s.state)) ++
        [.resp 0x00#8] }) ∧
  (∀ (count : Nat) (s : State), s.valid = true → ∃ t, exec (.generate count) s = .next t ∧
    t.sent.length = s.sent.length + count + 1 ∧ t.sent.getLast? = some (.resp 0x00#8)) ∧
  assemble "generate 7" = some (.command (.generate 7)) ∧
  (∃ t, runCommands [.construct 7, .generate 7] State.reset = .next t ∧ t.state = 0x01#31 ∧
    t.sent = [.resp 0x00#8, .bitOut false, .bitOut false, .bitOut false, .bitOut false,
      .bitOut false, .bitOut false, .bitOut true, .resp 0x00#8])

/-- R92: with VALID = 1, GENERATE of N leaves the state that N NEXT_BITs leave, and its bits are their BIT
values in order. -/
def Obligations.GenerateIsRepeatedNextBit : Prop :=
  ∀ (count : Nat) (s : State), s.valid = true →
    ∃ (bits : List Bool) (t u : State),
      exec (.generate count) s = .next t ∧
      runCommands (List.replicate count .nextBit) s = .next u ∧
      SameRegisters u t ∧ bits.length = count ∧
      t.sent = s.sent ++ bits.map .bitOut ++ [.resp 0x00#8] ∧
      u.sent = s.sent ++ bits.map (fun b => .resp (if b then 0x08#8 else 0x00#8))

/-- R93: with VALID = 1, GENERATE of a and then of b leaves the state of one GENERATE of a + b, and the two
bit lists joined are its bit list. -/
def Obligations.GenerateSplitsAnywhere : Prop :=
  ∀ (a b : Nat) (s : State), s.valid = true → a + b ≤ 2 ^ 32 - 1 →
    ∃ (xs ys : List Bool) (t u : State),
      runCommands [.generate a, .generate b] s = .next t ∧
      exec (.generate (a + b)) s = .next u ∧
      SameRegisters u t ∧ xs.length = a ∧ ys.length = b ∧
      t.sent = s.sent ++ xs.map .bitOut ++ [.resp 0x00#8] ++ ys.map .bitOut ++ [.resp 0x00#8] ∧
      u.sent = s.sent ++ (xs ++ ys).map .bitOut ++ [.resp 0x00#8]

/-- R95: a successful GENERATE of N returns exactly N bits, in emission order, and one of 0 returns none: the
bits of the response are those sent on `bit_out`, in their order, and from an instance they are the bits of
the steps, in theirs. -/
def Obligations.GenerateReturnsExactlyCountBits : Prop :=
  ∀ (count : Nat) (s : State), s.valid = true →
    ∃ t rsp, transact (.generate count) s = .next (t, rsp) ∧ rsp.status = .ok ∧
      rsp.bits.length = count ∧ (count = 0 → rsp.bits = []) ∧
      t.sent = s.sent ++ rsp.bits.map .bitOut ++ [.resp 0x00#8] ∧
      ∀ r ∈ tapRows, r.HeldBy s → rsp.bits = (List.range count).map (fun k => r.bitAt k s.state)

/-- R96: beyond one period the bits of a GENERATE repeat after 2^n - 1. -/
def Obligations.BitsRepeatAfterOnePeriod : Prop :=
  ∀ r ∈ tapRows, ∀ (count : Nat) (s : State), r.HeldBy s →
    ∃ t rsp, transact (.generate count) s = .next (t, rsp) ∧ rsp.status = .ok ∧
      ∀ k, k < count - (2 ^ r.n - 1) → rsp.bits[k]? = rsp.bits[k + (2 ^ r.n - 1)]?

/-- R97: after CONSTRUCT, a GENERATE of 2^n - 1 brings STATE back to 2^n - 1, and the next NEXT_BIT returns
the first generated bit, which is 0. -/
def Obligations.PeriodTestOfEachOrder : Prop :=
  ∀ r ∈ tapRows, ∀ s : State, ∃ (t u : State) (bits : List Bool),
    runCommands [.construct r.n, .generate (2 ^ r.n - 1)] s = .next t ∧
    t.sent = s.sent ++ [.resp 0x00#8] ++ bits.map .bitOut ++ [.resp 0x00#8] ∧
    bits.length = 2 ^ r.n - 1 ∧ bits.head? = some false ∧
    t.state = BitVec.ofNat 31 (2 ^ r.n - 1) ∧
    (Instr.generate (2 ^ r.n - 1)).wellFormed = true ∧
    exec .nextBit t = .next u ∧ u.sent = t.sent ++ [.resp 0x00#8]

/-- R98: from an instance, STATE is what it was exactly when the number of bits emitted since, by any mix
of NEXT_BITs and GENERATEs, is a multiple of 2^n - 1. -/
def Obligations.StateReturnsAfterWholePeriods : Prop :=
  ∀ r ∈ tapRows, ∀ (s : State) (cmds : List Instr), r.HeldBy s → (∀ i ∈ cmds, emits i = true) →
    ∃ t, runCommands cmds s = .next t ∧
      (t.state = s.state ↔ (2 ^ r.n - 1) ∣ (cmds.map emittedBy).sum)

/-- R94: `prbs` constructs, and only if that succeeded generates. A refused construction returns its status
and leaves the registers alone; else exactly `count` bits of the constructed instance are returned. -/
def Obligations.DriverConstructsThenGenerates : Prop :=
  ∀ (n : Nat) (seed : Option Seed) (count : Nat) (s : State),
    (check n seed ≠ .ok →
      prbs n seed count s = .next
        ({ s with sent := s.sent ++ [.resp (respWord (check n seed) false)] },
          .failure (check n seed))) ∧
    (check n seed = .ok → ∃ r ∈ tapRows, r.n = n ∧ ∃ a t,
      exec (constructCommand n seed) s = .next a ∧
      r.HeldBy a ∧
      prbs n seed count s = .next
        (t, .bits ((List.range count).map (fun k => r.bitAt k a.state))) ∧
      t.state = r.after count a.state)

/-! ### The reserved operation, statuses and writes -/

/-- R104: OP = 0b11 answers ERR_BAD_OP whatever the other bits hold, and nothing else happens. -/
def Obligations.ReservedOperationFails : Prop :=
  (∀ w : CmdWord, w.extractLsb' 0 2 = 0b11#2 → decode w = .reserved) ∧
  (∀ s : State, exec .reserved s = .next { s with sent := s.sent ++ [.resp 0x06#8] })

/-- R103: the status a command word gets is that of the first condition in the spec's list that holds, and
OK when none does. -/
def Obligations.FirstConditionGivesTheStatus : Prop :=
  ∀ (w : CmdWord) (s : State), ∃ t rw,
    exec (decode w) s = .next t ∧ t.sent.getLast? = some (.resp rw) ∧
    rw.extractLsb' 0 3 =
      if w.extractLsb' 0 2 = 0b11#2 then 6#3
      else if w.extractLsb' 0 2 = 0b00#2 then
        if (w.extractLsb' 2 5).toNat ∉ [7, 9, 11, 15, 23, 31] then 4#3
        else if w.getLsbD 7 = false then 0#3
        else if w.getLsbD 8 = true then 1#3
        else if (w.extractLsb' 64 64).toInt ≤ 0 then 2#3
        else if (w.extractLsb' 64 64).toInt > 2 ^ (w.extractLsb' 2 5).toNat - 1 then 3#3
        else 0#3
      else if s.valid = false then 5#3
      else 0#3

/-- R102: which command reports which code. -/
def Obligations.StatusCodesOfEachCommand : Prop :=
  ∀ (i : Instr) (s : State), ∃ t rw,
    exec i s = .next t ∧ t.sent.getLast? = some (.resp rw) ∧
    rw.extractLsb' 0 3 ∈
      (match i with
      | .construct _ => [0#3, 4#3]
      | .constructS _ _ => [0#3, 1#3, 2#3, 3#3, 4#3]
      | .nextBit => [0#3, 5#3]
      | .generate _ => [0#3, 5#3]
      | .reserved => [6#3])

/-- R52: every command gets exactly one response word, after its bits if it is a GENERATE; `[7:4]` is 0, and
BIT is 0 but for a successful NEXT_BIT. The abstract response is read off these. -/
def Obligations.EveryCommandGetsOneResponseWord : Prop :=
  ∀ (i : Instr) (s : State), ∃ (t : State) (bits : List Bool) (rw : RespWord) (rsp : Response),
    exec i s = .next t ∧ t.sent = s.sent ++ bits.map .bitOut ++ [.resp rw] ∧
    rw.extractLsb' 4 4 = 0#4 ∧ rw.extractLsb' 0 3 ≠ 7#3 ∧
    (rw.getLsbD 3 = true → i = .nextBit ∧ rw.extractLsb' 0 3 = 0#3) ∧
    (bits ≠ [] → i = .generate bits.length ∧ rw.extractLsb' 0 3 = 0#3) ∧
    (∀ count, i = .generate count → rw.extractLsb' 0 3 = 0#3 → bits.length = count) ∧
    transact i s = .next (t, rsp) ∧ rsp.status.code = rw.extractLsb' 0 3 ∧
    rsp.bits = (match i with
      | .nextBit => if rw.extractLsb' 0 3 = 0#3 then [rw.getLsbD 3] else []
      | .generate _ => bits
      | _ => [])

/-- R105: no command traps, and one whose status is not OK changes no register and sends its response word
alone. -/
def Obligations.FailingCommandChangesNoRegister : Prop :=
  ∀ (i : Instr) (s : State), ∃ t rw,
    exec i s = .next t ∧ t.sent.getLast? = some (.resp rw) ∧
    (rw.extractLsb' 0 3 ≠ 0#3 → t = { s with sent := s.sent ++ [.resp rw] })

/-- R30: the write set of every command: a register is unchanged unless the rules name it for the command
and the command succeeds; reset writes VALID and LIFE. What was sent stays sent, and the host's side is
untouched. -/
def Obligations.CommandsWriteOnlyTheirWriteSets : Prop :=
  (∀ (rest : List HostAction) (s : State), s.inbox = .reset :: rest →
    ∃ t, step s = .next t ∧ t.valid = false ∧ t.life = .constructed ∧ t.sent = s.sent) ∧
  ∀ (i : Instr) (s : State), ∃ t, exec i s = .next t ∧ SameSurroundings s t ∧
    (∃ ts, t.sent = s.sent ++ ts) ∧
    (startsInstance i = false →
      t.valid = s.valid ∧ t.order = s.order ∧ t.t1 = s.t1 ∧ t.t2 = s.t2) ∧
    (startsInstance i = false → (emits i = false ∨ s.valid = false) → SameRegisters s t) ∧
    (i = .generate 0 → SameRegisters s t)

/-- R17, R18: between two successful CONSTRUCTs no command writes ORDER, T1 or T2, and with VALID = 1 they
hold an order of the table and its taps. -/
def Obligations.OrderAndTapsAreImmutable : Prop :=
  (∀ (cmds : List Instr) (s : State), (∀ i ∈ cmds, startsInstance i = false) →
    ∃ t, runCommands cmds s = .next t ∧ t.order = s.order ∧ t.t1 = s.t1 ∧ t.t2 = s.t2) ∧
  (∀ (cmds : List Instr) (s : State), s.valid = false → ∃ t, runCommands cmds s = .next t ∧
    (t.valid = true → ∃ r ∈ tapRows, t.order = BitVec.ofNat 5 r.n ∧
      t.t1 = BitVec.ofNat 5 r.t1 ∧ t.t2 = BitVec.ofNat 5 r.t2))

/-- R21: a successful CONSTRUCT makes LIFE CONSTRUCTED, every emitted bit makes it RUNNING, a GENERATE of 0
bits leaves it; no output and no status depends on it. -/
def Obligations.LifeRecordsTheLifecycle : Prop :=
  (∀ (i : Instr) (s : State), startsInstance i = true →
    ∃ t, exec i s = .next t ∧ t.life = .constructed) ∧
  (∀ s : State, s.valid = true → ∃ t, exec .nextBit s = .next t ∧ t.life = .running) ∧
  (∀ (count : Nat) (s : State), s.valid = true → ∃ t, exec (.generate count) s = .next t ∧
    t.life = if count = 0 then s.life else .running) ∧
  (∀ (i : Instr) (s : State) (l : Life), ∃ t u, exec i s = .next t ∧
    exec i { s with life := l } = .next u ∧ u.sent = t.sent)

/-! ### Steps, reset and runs -/

/-- A step with a command as the host's next action is the meaning of the command it decodes to, in the
state without that action; `withFetchWord` brings the opcode table's word there. -/
def Obligations.StepRunsTheDecodedCommand : Prop :=
  (∀ (w : CmdWord) (rest : List HostAction) (s : State), s.inbox = .command w :: rest →
    s.awaitingReset = false → step s = exec (decode w) { s with inbox := rest }) ∧
  (∀ (nbits w : Nat) (i : Instr) (s : State), decodeTableWord nbits w = some i →
    step (s.withFetchWord nbits w) = exec i { s with awaitingReset := false })

/-- R111: with nothing from the host the block holds its registers unchanged. -/
def Obligations.IdleBlockHoldsItsState : Prop :=
  ∀ s : State, s.inbox = [] → step s = .next s

/-- R116, R117: after reset there is no instance and LIFE is CONSTRUCTED, whatever came before, a second
reset too; nothing is sent; the first NEXT_BIT or GENERATE answers ERR_NOT_CONSTRUCTED; the ports are
ready for a command and offer nothing. -/
def Obligations.ResetLeavesNoInstance : Prop :=
  (∀ (rest : List HostAction) (s : State), s.inbox = .reset :: rest →
    ∃ t, step s = .next t ∧ t.valid = false ∧ t.life = .constructed ∧ t.sent = s.sent ∧
      t.inbox = rest ∧ t.awaitingReset = false ∧
      exec .nextBit t = .next { t with sent := t.sent ++ [.resp 0x05#8] } ∧
      ∀ count, exec (.generate count) t = .next { t with sent := t.sent ++ [.resp 0x05#8] }) ∧
  (∀ (h : HostSignals) (p : PortState), h.rst = true →
    ∃ q, p.edge h = .next q ∧ q.block.valid = false ∧ q.block.life = .constructed ∧
      q.cmdReady = true ∧ q.respOffered = none ∧ q.bitOffered = none)

/-- R24: the reset values the spec gives, and that the unspecified ones are unobservable: from any two states
without an instance, whatever their other registers hold, the same commands send the same. -/
def Obligations.UnspecifiedRegistersAreUnobservable : Prop :=
  State.reset.valid = false ∧ State.reset.life = .constructed ∧
  ∀ (s t : State) (cmds : List Instr), s.valid = false → t.valid = false →
    ∃ s' t', runCommands cmds s = .next s' ∧ runCommands cmds t = .next t' ∧
      s.sentSince s' = t.sentSince t' ∧ Alike s' t'

/-- R20: the instance invariant holds after reset, and every command keeps it, from every state that has
it. -/
def Obligations.EveryCommandKeepsTheInvariant : Prop :=
  State.reset.Inv ∧ (∀ s : State, s.applyReset.Inv) ∧
  ∀ (i : Instr) (s : State), s.Inv → ∃ t, exec i s = .next t ∧ t.Inv

/-- R20, R101: every step of the machine, whatever the host does, keeps the invariant of the registers and
that of the response words sent. -/
def Obligations.EveryStepKeepsTheMachineGood : Prop :=
  ∀ s t : State, s.Good → step s = .next t → t.Good

/-- R20, R24: the state after reset satisfies `INV` and the machine's invariant `Good`; and nothing has been
sent (the model's choice: log entry 2). -/
def Obligations.ResetStateIsGood : Prop :=
  State.reset.Inv ∧ State.reset.Good ∧ State.reset.sent = []

/-- R118: `rst` while a command is in progress abandons it: what was taken stands, nothing more is offered,
the state is that of a reset; the transaction-level model refuses the run. (Whether an item that could move at
the same edge still does is left to `ResetWinsOverATransferAtTheSameEdge`.) -/
def Obligations.ResetDuringACommandAbandonsIt : Prop :=
  (∀ (w : CmdWord) (rest : List HostAction) (s : State), s.inbox = .resetDuring w :: rest →
    step s = .refused .resetDuringCommand) ∧
  (∀ (h : HostSignals) (p : PortState), h.rst = true → p.owed ≠ [] →
    ∃ q, p.edge h = .next q ∧ q.owed = [] ∧ p.block.sent <+: q.block.sent ∧
      (h.bitReady = false → h.respReady = false → q.block.sent = p.block.sent) ∧
      q.block.valid = false ∧ q.block.life = .constructed)

/-- The model's choice (log entry 17; the spec gives no precedence between R43 and R118): at an edge with
`rst` = 1 no item moves on any channel, whatever is valid and ready: no offered bit or response is taken, no
offered command is accepted, and the block is as a reset leaves it. -/
def Obligations.ResetWinsOverATransferAtTheSameEdge : Prop :=
  ∀ (h : HostSignals) (p : PortState), h.rst = true →
    p.edge h = .next (PortState.idle p.block.applyReset) ∧
      p.block.applyReset.sent = p.block.sent ∧ p.block.applyReset.inbox = p.block.inbox

/-- R39, R114, R119: a second host's command is refused, and so is a command to a freshly powered block
before `rst`, as a host action and on the ports; after `rst` it runs. -/
def Obligations.RunsOutsideTheModelAreRefused : Prop :=
  (∀ (w : CmdWord) (rest : List HostAction) (s : State), s.inbox = .secondHost w :: rest →
    step s = .refused .concurrentHosts) ∧
  (∀ (w : CmdWord) (rest : List HostAction) (s : State), s.inbox = .powerUp :: .command w :: rest →
    ∃ t, step s = .next t ∧ step t = .refused .commandBeforeReset) ∧
  (∀ (w : CmdWord) (rest : List HostAction) (s : State),
    s.inbox = .powerUp :: .reset :: .command w :: rest →
    ∃ t u v, step s = .next t ∧ step t = .next u ∧ step u = .next v) ∧
  (∀ (h : HostSignals) (s : State), h.rst = false → h.cmdValid = true → s.awaitingReset = true →
    (PortState.idle s).edge h = .refused .commandBeforeReset)

/-- R43, R44, R115, with the model's choice that the ports have no latency (log entry 7: a claim about how many
edges pass is about the model). An idle edge without `cmd_valid` changes nothing; one with it accepts the word
on `cmd`. A command sends its bits, if it is a GENERATE, and then exactly one response word: these move in
emission order, one an edge, and only then is the block ready again, in the state of the transaction-level
step. -/
def Obligations.PortsCarryOutTheTransaction : Prop :=
  (∀ (h : HostSignals) (s : State), h.rst = false → h.cmdValid = false →
    (PortState.idle s).edge h = .next (PortState.idle s)) ∧
  ∀ (h : HostSignals) (s t : State) (hs : List HostSignals), s.awaitingReset = false →
    h.rst = false → h.cmdValid = true →
    exec (decode h.cmd) s = .next t →
    (∀ g ∈ hs, g.rst = false ∧ g.respReady = true ∧ g.bitReady = true) →
    hs.length = (s.sentSince t).length →
    (∃ (bits : List Bool) (rw : RespWord), s.sentSince t = bits.map .bitOut ++ [.resp rw] ∧
      (bits ≠ [] → decode h.cmd = .generate bits.length)) ∧
    (PortState.idle s).cmdReady = true ∧
    ∃ p, (PortState.idle s).edge h = .next p ∧ p.InProgress t ∧
      p.edges hs = .next (PortState.idle t) ∧
      ∀ k, k < hs.length → ∃ q, p.edges (hs.take k) = .next q ∧ q.InProgress t

/-- R44: the block accepts the word on `cmd`; however long the host makes it wait for each item, and whatever
it offers on `cmd` meanwhile, the command stays in progress until all that the transaction-level step sends has
been taken, the bits of a GENERATE in emission order and then one response word; only then is `cmd_ready` 1
again, and the block in the state of that step; and a host that goes on taking items gets there. -/
def Obligations.CommandReadyOnlyAfterTheResponse : Prop :=
  ∀ (h : HostSignals) (s : State), s.awaitingReset = false → h.rst = false → h.cmdValid = true →
    ∃ (t : State) (p : PortState) (bits : List Bool) (rw : RespWord),
      exec (decode h.cmd) s = .next t ∧ (PortState.idle s).edge h = .next p ∧ p.InProgress t ∧
      t.sent = s.sent ++ bits.map .bitOut ++ [.resp rw] ∧
      (bits ≠ [] → decode h.cmd = .generate bits.length) ∧
      (∀ hs : List HostSignals, (∀ g ∈ hs, g.rst = false) →
        (∃ q, p.edges hs = .next q ∧ q.InProgress t) ∨
        ∃ k, k ≤ hs.length ∧ p.edges (hs.take k) = .next (PortState.idle t) ∧
          ∀ j, j < k → ∃ q, p.edges (hs.take j) = .next q ∧ q.InProgress t) ∧
      ∃ enough, ∀ hs : List HostSignals, enough ≤ hs.length →
        (∀ g ∈ hs, g.rst = false ∧ g.respReady = true ∧ g.bitReady = true) →
        ∃ k, k ≤ hs.length ∧ p.edges (hs.take k) = .next (PortState.idle t)

/-- R120, R124: while a command is in progress no command is accepted; an item the host is not ready for stays
offered; a step of the ports neither drops nor duplicates an item. That an edge which moves an item leaves the
registers unchanged is the model's choice: a command is performed in full at the edge that accepts it (log
entry 7). -/
def Obligations.BackPressureLosesNothing : Prop :=
  ∀ (h : HostSignals) (p : PortState), h.rst = false → p.owed ≠ [] →
    p.cmdReady = false ∧
    ∃ q, p.edge h = .next q ∧ q.block.sent ++ q.owed = p.block.sent ++ p.owed ∧
      SameRegisters p.block q.block ∧ SameSurroundings p.block q.block ∧
      (p.bitOffered.isSome = true → h.bitReady = false → q = p) ∧
      (p.respOffered.isSome = true → h.respReady = false → q = p)

/-- R112: a command to one block of a system changes no other block, and does to its own block what it
does to that block alone. -/
def Obligations.BlocksDoNotAffectEachOther : Prop :=
  (systemReset.length = Config.nInst ∧ 1 ≤ systemReset.length) ∧
  ∀ (system : List State) (k : Fin system.length) (i : Instr), ∃ system' t,
    execIn system k i = .next system' ∧ exec i system[k] = .next t ∧
    system'.length = system.length ∧ system'[k.val]? = some t ∧
    ∀ j, j ≠ k.val → system'[j]? = system[j]?

/-- R112: every block has its own reset and its own ports. After reset each of the `N_INST` blocks has no
instance and ports that are ready and silent. A reset of one block, as a host action or as `rst` on its own ports,
gives that block the state of R116 and leaves every other; so does every other step of one block, and every
other edge of one block's ports; and edges of two blocks may come in either order. -/
def Obligations.EveryBlockHasItsOwnResetAndPorts : Prop :=
  (systemPorts.length = Config.nInst ∧ ∀ p ∈ systemPorts, p.block.valid = false ∧
    p.block.life = .constructed ∧ p.cmdReady = true ∧ p.respOffered = none ∧ p.bitOffered = none) ∧
  (∀ (system : List State) (k : Fin system.length) (rest : List HostAction),
    system[k].inbox = .reset :: rest → ∃ system' t, stepIn system k = .next system' ∧
      system'.length = system.length ∧ system'[k.val]? = some t ∧ t.valid = false ∧
      t.life = .constructed ∧ t.sent = system[k].sent ∧ t.inbox = rest ∧
      ∀ j, j ≠ k.val → system'[j]? = system[j]?) ∧
  (∀ (system : List PortState) (k : Fin system.length) (h : HostSignals), h.rst = true →
    ∃ system' q, edgeIn system k h = .next system' ∧ system'.length = system.length ∧
      system'[k.val]? = some q ∧ q.block.valid = false ∧ q.block.life = .constructed ∧
      q.cmdReady = true ∧ q.respOffered = none ∧ q.bitOffered = none ∧
      ∀ j, j ≠ k.val → system'[j]? = system[j]?) ∧
  (∀ (system : List State) (k : Fin system.length) (t : State), step system[k] = .next t →
    ∃ system', stepIn system k = .next system' ∧ system'.length = system.length ∧
      system'[k.val]? = some t ∧ ∀ j, j ≠ k.val → system'[j]? = system[j]?) ∧
  (∀ (system : List PortState) (k : Fin system.length) (h : HostSignals) (q : PortState),
    system[k].edge h = .next q → ∃ system', edgeIn system k h = .next system' ∧
      system'.length = system.length ∧ system'[k.val]? = some q ∧
      ∀ j, j ≠ k.val → system'[j]? = system[j]?) ∧
  (∀ (system afterJ afterK : List PortState) (j k : Fin system.length) (hj hk : HostSignals),
    j ≠ k → edgeIn system j hj = .next afterJ → edgeIn system k hk = .next afterK →
    ∃ (kIn : k.val < afterJ.length) (jIn : j.val < afterK.length) (both : List PortState),
      edgeIn afterJ ⟨k.val, kIn⟩ hk = .next both ∧ edgeIn afterK ⟨j.val, jIn⟩ hj = .next both)
end

