-- ==== Sys2Proof/Laws/Decode.lean ====
section
/-! SUPPORT. The fields of a command word built from fields, and the signed reading of SEED. -/

namespace Sys2Proof

/-- `sval64` is the two's complement reading of the field (R8). -/
theorem sval64_eq_toInt (v : BitVec 64) : sval64 v = v.toInt := by
  simp only [sval64, BitVec.toInt_eq_msb_cond, BitVec.msb_eq_getLsbD_last]
  norm_num

/-- Bit `i` of a word built from fields (R45). -/
theorem packWord_getLsbD (op : BitVec 2) (order : BitVec 5) (sp st : Bool) (count : BitVec 32)
    (seed : BitVec 64) (i : Nat) :
    (packWord op order sp st count seed).getLsbD i =
      if i < 2 then op.getLsbD i
      else if i < 7 then order.getLsbD (i - 2)
      else if i = 7 then sp
      else if i = 8 then st
      else if i < 32 then false
      else if i < 64 then count.getLsbD (i - 32)
      else seed.getLsbD (i - 64) := by
  simp only [packWord, BitVec.getLsbD_append]
  by_cases h0 : i < 2
  · simp only [h0, if_true]
  by_cases h1 : i < 7
  · simp only [h0, h1, if_true, if_false, show i - 2 < 5 by omega]
  by_cases h2 : i = 7
  · subst h2; simp
  by_cases h3 : i = 8
  · subst h3; simp
  have e1 : ¬ (i - 2 < 5) := by omega
  have e2 : ¬ (i - 2 - 5 < 1) := by omega
  have e3 : ¬ (i - 2 - 5 - 1 < 1) := by omega
  by_cases h4 : i < 32
  · have e4 : i - 2 - 5 - 1 - 1 < 23 := by omega
    simp [h0, h1, h2, h3, h4, e1, e2, e3, e4]
  have e4 : ¬ (i - 2 - 5 - 1 - 1 < 23) := by omega
  by_cases h5 : i < 64
  · have e5 : i - 2 - 5 - 1 - 1 - 23 < 32 := by omega
    simp only [h0, h1, h2, h3, h4, h5, e1, e2, e3, e4, e5, if_true, if_false]
    congr 1
  · have e5 : ¬ (i - 2 - 5 - 1 - 1 - 23 < 32) := by omega
    simp only [h0, h1, h2, h3, h4, h5, e1, e2, e3, e4, e5, if_false]
    congr 1

@[simp] theorem cmdOp_packWord (op : BitVec 2) (order : BitVec 5) (sp st : Bool)
    (count : BitVec 32) (seed : BitVec 64) :
    cmdOp (packWord op order sp st count seed) = op := by
  refine BitVec.eq_of_getLsbD_eq fun i hi => ?_
  simp only [cmdOp, BitVec.getLsbD_extractLsb', packWord_getLsbD, hi, decide_true, Bool.true_and]
  rw [if_pos (by omega), Nat.zero_add]

@[simp] theorem cmdOrder_packWord (op : BitVec 2) (order : BitVec 5) (sp st : Bool)
    (count : BitVec 32) (seed : BitVec 64) :
    cmdOrder (packWord op order sp st count seed) = order := by
  refine BitVec.eq_of_getLsbD_eq fun i hi => ?_
  simp only [cmdOrder, BitVec.getLsbD_extractLsb', packWord_getLsbD, hi, decide_true, Bool.true_and]
  rw [if_neg (by omega), if_pos (by omega), Nat.add_sub_cancel_left]

@[simp] theorem cmdSp_packWord (op : BitVec 2) (order : BitVec 5) (sp st : Bool)
    (count : BitVec 32) (seed : BitVec 64) :
    cmdSp (packWord op order sp st count seed) = sp := by
  simp only [cmdSp, packWord_getLsbD]
  rfl

@[simp] theorem cmdSt_packWord (op : BitVec 2) (order : BitVec 5) (sp st : Bool)
    (count : BitVec 32) (seed : BitVec 64) :
    cmdSt (packWord op order sp st count seed) = st := by
  simp only [cmdSt, packWord_getLsbD]
  rfl

@[simp] theorem cmdCount_packWord (op : BitVec 2) (order : BitVec 5) (sp st : Bool)
    (count : BitVec 32) (seed : BitVec 64) :
    cmdCount (packWord op order sp st count seed) = count := by
  refine BitVec.eq_of_getLsbD_eq fun i hi => ?_
  simp only [cmdCount, BitVec.getLsbD_extractLsb', packWord_getLsbD, hi, decide_true, Bool.true_and]
  rw [if_neg (by omega), if_neg (by omega), if_neg (by omega), if_neg (by omega), if_neg (by omega), if_pos (by omega),
    Nat.add_sub_cancel_left]

@[simp] theorem cmdSeed_packWord (op : BitVec 2) (order : BitVec 5) (sp st : Bool)
    (count : BitVec 32) (seed : BitVec 64) :
    cmdSeed (packWord op order sp st count seed) = seed := by
  refine BitVec.eq_of_getLsbD_eq fun i hi => ?_
  simp only [cmdSeed, BitVec.getLsbD_extractLsb', packWord_getLsbD, hi, decide_true, Bool.true_and]
  rw [if_neg (by omega), if_neg (by omega), if_neg (by omega), if_neg (by omega), if_neg (by omega), if_neg (by omega),
    Nat.add_sub_cancel_left]

end Sys2Proof
end

