-- ==== Sys2Proof/Laws/Operands.lean ====
section
/-! SUPPORT. The orders, and the validity checker case by case. -/

namespace Sys2Proof

theorem PrbsOrder.mem_all (o : PrbsOrder) : o ∈ PrbsOrder.all := by cases o <;> decide

/-- Only the six degrees name an order (R13, R47). -/
theorem PrbsOrder.ofDegree_eq_some_iff (n : Nat) (o : PrbsOrder) :
    PrbsOrder.ofDegree n = some o ↔ o.degree = n := by
  constructor
  · intro h
    simpa using List.find?_some h
  · rintro rfl
    cases o <;> rfl

theorem PrbsOrder.ofDegree_eq_none_iff (n : Nat) :
    PrbsOrder.ofDegree n = none ↔ n ∉ [7, 9, 11, 15, 23, 31] := by
  simp only [PrbsOrder.ofDegree, List.find?_eq_none, PrbsOrder.all]
  simp [PrbsOrder.degree, eq_comm]

@[simp] theorem PrbsOrder.ofDegree_degree (o : PrbsOrder) :
    PrbsOrder.ofDegree o.degree = some o := (PrbsOrder.ofDegree_eq_some_iff _ _).2 rfl

theorem PrbsOrder.degree_le (o : PrbsOrder) : o.degree ≤ 31 := by cases o <;> decide

theorem PrbsOrder.degree_pos (o : PrbsOrder) : 0 < o.degree := by cases o <;> decide

theorem PrbsOrder.field_toNat (o : PrbsOrder) : o.field.toNat = o.degree := by
  cases o <;> decide

/-- The top bit of an order's register is always one of the two taps, and the other is below it
(R14). -/
theorem PrbsOrder.taps_bounds (o : PrbsOrder) :
    o.taps.1 = o.degree ∧ 1 ≤ o.taps.2 ∧ o.taps.2 < o.degree := by
  cases o <;> decide

namespace Machine

/-- The row of R13's table that an order stands for. -/
def rowOf (o : PrbsOrder) : TapRow := ⟨o.degree, o.taps.1, o.taps.2⟩

theorem rowOf_mem (o : PrbsOrder) : rowOf o ∈ tapRows := by cases o <;> decide

theorem exists_order_of_mem {r : TapRow} (h : r ∈ tapRows) : ∃ o, r = rowOf o := by
  simp only [tapRows, List.mem_cons, List.not_mem_nil, or_false] at h
  rcases h with rfl | rfl | rfl | rfl | rfl | rfl
  · exact ⟨.prbs7, rfl⟩
  · exact ⟨.prbs9, rfl⟩
  · exact ⟨.prbs11, rfl⟩
  · exact ⟨.prbs15, rfl⟩
  · exact ⟨.prbs23, rfl⟩
  · exact ⟨.prbs31, rfl⟩

theorem rowOf_step (o : PrbsOrder) (x : ShiftWord) :
    (rowOf o).step x = lfsrStep o.field o.t1 o.t2 x := rfl

theorem rowOf_heldBy (o : PrbsOrder) (s : State) : (rowOf o).HeldBy s ↔ s.Holds o := Iff.rfl

theorem inv_iff (s : State) : s.Inv ↔ s.valid = false ∨ ∃ r ∈ tapRows, r.HeldBy s := by
  constructor
  · rintro (h | ⟨o, -, h⟩)
    · exact .inl h
    · exact .inr ⟨rowOf o, rowOf_mem o, h⟩
  · rintro (h | ⟨r, hr, h⟩)
    · exact .inl h
    · obtain ⟨o, rfl⟩ := exists_order_of_mem hr
      exact .inr ⟨o, o.mem_all, h⟩

theorem check_reserved_order {n : Nat} (h : n ∉ [7, 9, 11, 15, 23, 31]) (seed : Option Seed) :
    check n seed = .errOrder := by
  simp [check, (PrbsOrder.ofDegree_eq_none_iff n).2 h]

@[simp] theorem check_none (o : PrbsOrder) : check o.degree none = .ok := by simp [check]

@[simp] theorem check_nonInteger (o : PrbsOrder) :
    check o.degree (some .nonInteger) = .errSeedType := by simp [check]

theorem check_integer (o : PrbsOrder) (v : Int) :
    check o.degree (some (.integer v)) =
      if v ≤ 0 then .errSeedNonpos else if 2 ^ o.degree - 1 < v then .errSeedRange else .ok := by
  simp [check]

/-- What an accepted construction is (R62): a supported order with no seed, or with an integer seed from
1 to 2^n - 1. -/
theorem check_eq_ok_iff (n : Nat) (seed : Option Seed) :
    check n seed = .ok ↔ ∃ o : PrbsOrder, o.degree = n ∧
      (seed = none ∨ ∃ v : Int, seed = some (.integer v) ∧ 0 < v ∧ v ≤ 2 ^ n - 1) := by
  constructor
  · intro h
    cases ho : PrbsOrder.ofDegree n with
    | none => simp [check, ho] at h
    | some o =>
      have hn := (PrbsOrder.ofDegree_eq_some_iff n o).1 ho
      refine ⟨o, hn, ?_⟩
      match seed with
      | none => exact .inl rfl
      | some .nonInteger => simp [check, ho] at h
      | some (.integer v) =>
        rw [← hn, check_integer] at h
        split at h
        · cases h
        · split at h
          · cases h
          · exact .inr ⟨v, rfl, by omega, by rw [← hn]; omega⟩
  · rintro ⟨o, rfl, rfl | ⟨v, rfl, h0, h1⟩⟩
    · simp
    · rw [check_integer, if_neg (by omega), if_neg (by omega)]

/-- Bit `i` of `mask(n)`. -/
theorem mask_getLsbD {n : Nat} (hn : n ≤ 31) (i : Nat) : (mask n).getLsbD i = decide (i < n) := by
  simp only [mask, BitVec.getLsbD_ofNat, Nat.testBit_two_pow_sub_one]
  by_cases h : i < n <;> simp [h]
  omega

end Machine

end Sys2Proof
end

