-- ==== Sys2Proof/Laws/State.lean ====
section
/-! SUPPORT. Each field of State after each named update: what it writes, and that it leaves the rest. -/

namespace Sys2Proof.Machine

@[simp] theorem State.send_valid (ts : List Transfer) (s : State) :
    (s.send ts).valid = s.valid := rfl
@[simp] theorem State.send_order (ts : List Transfer) (s : State) :
    (s.send ts).order = s.order := rfl
@[simp] theorem State.send_t1 (ts : List Transfer) (s : State) :
    (s.send ts).t1 = s.t1 := rfl
@[simp] theorem State.send_t2 (ts : List Transfer) (s : State) :
    (s.send ts).t2 = s.t2 := rfl
@[simp] theorem State.send_state (ts : List Transfer) (s : State) :
    (s.send ts).state = s.state := rfl
@[simp] theorem State.send_life (ts : List Transfer) (s : State) :
    (s.send ts).life = s.life := rfl
@[simp] theorem State.send_inbox (ts : List Transfer) (s : State) :
    (s.send ts).inbox = s.inbox := rfl
@[simp] theorem State.send_sent (ts : List Transfer) (s : State) :
    (s.send ts).sent = s.sent ++ ts := rfl
@[simp] theorem State.send_draws (ts : List Transfer) (s : State) :
    (s.send ts).draws = s.draws := rfl
@[simp] theorem State.send_awaitingReset (ts : List Transfer) (s : State) :
    (s.send ts).awaitingReset = s.awaitingReset := rfl

@[simp] theorem State.respond_valid (st : Status) (s : State) :
    (s.respond st).valid = s.valid := rfl
@[simp] theorem State.respond_order (st : Status) (s : State) :
    (s.respond st).order = s.order := rfl
@[simp] theorem State.respond_t1 (st : Status) (s : State) :
    (s.respond st).t1 = s.t1 := rfl
@[simp] theorem State.respond_t2 (st : Status) (s : State) :
    (s.respond st).t2 = s.t2 := rfl
@[simp] theorem State.respond_state (st : Status) (s : State) :
    (s.respond st).state = s.state := rfl
@[simp] theorem State.respond_life (st : Status) (s : State) :
    (s.respond st).life = s.life := rfl
@[simp] theorem State.respond_inbox (st : Status) (s : State) :
    (s.respond st).inbox = s.inbox := rfl
@[simp] theorem State.respond_sent (st : Status) (s : State) :
    (s.respond st).sent = s.sent ++ [.resp (respWord st false)] := rfl
@[simp] theorem State.respond_draws (st : Status) (s : State) :
    (s.respond st).draws = s.draws := rfl
@[simp] theorem State.respond_awaitingReset (st : Status) (s : State) :
    (s.respond st).awaitingReset = s.awaitingReset := rfl

@[simp] theorem State.fail_valid (st : Status) (s : State) :
    (s.fail st).valid = s.valid := rfl
@[simp] theorem State.fail_order (st : Status) (s : State) :
    (s.fail st).order = s.order := rfl
@[simp] theorem State.fail_t1 (st : Status) (s : State) :
    (s.fail st).t1 = s.t1 := rfl
@[simp] theorem State.fail_t2 (st : Status) (s : State) :
    (s.fail st).t2 = s.t2 := rfl
@[simp] theorem State.fail_state (st : Status) (s : State) :
    (s.fail st).state = s.state := rfl
@[simp] theorem State.fail_life (st : Status) (s : State) :
    (s.fail st).life = s.life := rfl
@[simp] theorem State.fail_inbox (st : Status) (s : State) :
    (s.fail st).inbox = s.inbox := rfl
@[simp] theorem State.fail_sent (st : Status) (s : State) :
    (s.fail st).sent = s.sent ++ [.resp (respWord st false)] := rfl
@[simp] theorem State.fail_draws (st : Status) (s : State) :
    (s.fail st).draws = s.draws := rfl
@[simp] theorem State.fail_awaitingReset (st : Status) (s : State) :
    (s.fail st).awaitingReset = s.awaitingReset := rfl

@[simp] theorem State.load_valid (o : PrbsOrder) (x : ShiftWord) (s : State) :
    (s.load o x).valid = true := rfl
@[simp] theorem State.load_order (o : PrbsOrder) (x : ShiftWord) (s : State) :
    (s.load o x).order = o.field := rfl
@[simp] theorem State.load_t1 (o : PrbsOrder) (x : ShiftWord) (s : State) :
    (s.load o x).t1 = o.t1 := rfl
@[simp] theorem State.load_t2 (o : PrbsOrder) (x : ShiftWord) (s : State) :
    (s.load o x).t2 = o.t2 := rfl
@[simp] theorem State.load_state (o : PrbsOrder) (x : ShiftWord) (s : State) :
    (s.load o x).state = x := rfl
@[simp] theorem State.load_life (o : PrbsOrder) (x : ShiftWord) (s : State) :
    (s.load o x).life = .constructed := rfl
@[simp] theorem State.load_inbox (o : PrbsOrder) (x : ShiftWord) (s : State) :
    (s.load o x).inbox = s.inbox := rfl
@[simp] theorem State.load_sent (o : PrbsOrder) (x : ShiftWord) (s : State) :
    (s.load o x).sent = s.sent := rfl
@[simp] theorem State.load_draws (o : PrbsOrder) (x : ShiftWord) (s : State) :
    (s.load o x).draws = s.draws := rfl
@[simp] theorem State.load_awaitingReset (o : PrbsOrder) (x : ShiftWord) (s : State) :
    (s.load o x).awaitingReset = s.awaitingReset := rfl

@[simp] theorem State.emit_valid (s : State) :
    (emit s).1.valid = s.valid := rfl
@[simp] theorem State.emit_order (s : State) :
    (emit s).1.order = s.order := rfl
@[simp] theorem State.emit_t1 (s : State) :
    (emit s).1.t1 = s.t1 := rfl
@[simp] theorem State.emit_t2 (s : State) :
    (emit s).1.t2 = s.t2 := rfl
@[simp] theorem State.emit_state (s : State) :
    (emit s).1.state = (lfsrStep s.order s.t1 s.t2 s.state).1 := rfl
@[simp] theorem State.emit_life (s : State) :
    (emit s).1.life = .running := rfl
@[simp] theorem State.emit_inbox (s : State) :
    (emit s).1.inbox = s.inbox := rfl
@[simp] theorem State.emit_sent (s : State) :
    (emit s).1.sent = s.sent := rfl
@[simp] theorem State.emit_draws (s : State) :
    (emit s).1.draws = s.draws := rfl
@[simp] theorem State.emit_awaitingReset (s : State) :
    (emit s).1.awaitingReset = s.awaitingReset := rfl

@[simp] theorem State.applyReset_valid (s : State) :
    s.applyReset.valid = false := rfl
@[simp] theorem State.applyReset_order (s : State) :
    s.applyReset.order = Config.drawOrder s.draws := rfl
@[simp] theorem State.applyReset_t1 (s : State) :
    s.applyReset.t1 = Config.drawT1 s.draws := rfl
@[simp] theorem State.applyReset_t2 (s : State) :
    s.applyReset.t2 = Config.drawT2 s.draws := rfl
@[simp] theorem State.applyReset_state (s : State) :
    s.applyReset.state = Config.drawState s.draws := rfl
@[simp] theorem State.applyReset_life (s : State) :
    s.applyReset.life = .constructed := rfl
@[simp] theorem State.applyReset_inbox (s : State) :
    s.applyReset.inbox = s.inbox := rfl
@[simp] theorem State.applyReset_sent (s : State) :
    s.applyReset.sent = s.sent := rfl
@[simp] theorem State.applyReset_draws (s : State) :
    s.applyReset.draws = s.draws + Config.nInst := rfl
@[simp] theorem State.applyReset_awaitingReset (s : State) :
    s.applyReset.awaitingReset = false := rfl

@[simp] theorem State.applyPower_valid (s : State) :
    s.applyPower.valid = Config.drawValid s.draws := rfl
@[simp] theorem State.applyPower_order (s : State) :
    s.applyPower.order = Config.drawOrder s.draws := rfl
@[simp] theorem State.applyPower_t1 (s : State) :
    s.applyPower.t1 = Config.drawT1 s.draws := rfl
@[simp] theorem State.applyPower_t2 (s : State) :
    s.applyPower.t2 = Config.drawT2 s.draws := rfl
@[simp] theorem State.applyPower_state (s : State) :
    s.applyPower.state = Config.drawState s.draws := rfl
@[simp] theorem State.applyPower_life (s : State) :
    s.applyPower.life = if Config.drawLife s.draws then .running else .constructed := rfl
@[simp] theorem State.applyPower_inbox (s : State) :
    s.applyPower.inbox = s.inbox := rfl
@[simp] theorem State.applyPower_sent (s : State) :
    s.applyPower.sent = s.sent := rfl
@[simp] theorem State.applyPower_draws (s : State) :
    s.applyPower.draws = s.draws + Config.nInst := rfl
@[simp] theorem State.applyPower_awaitingReset (s : State) :
    s.applyPower.awaitingReset = true := rfl

@[simp] theorem State.withCommand_valid (w : CmdWord) (s : State) :
    (s.withCommand w).valid = s.valid := rfl
@[simp] theorem State.withCommand_order (w : CmdWord) (s : State) :
    (s.withCommand w).order = s.order := rfl
@[simp] theorem State.withCommand_t1 (w : CmdWord) (s : State) :
    (s.withCommand w).t1 = s.t1 := rfl
@[simp] theorem State.withCommand_t2 (w : CmdWord) (s : State) :
    (s.withCommand w).t2 = s.t2 := rfl
@[simp] theorem State.withCommand_state (w : CmdWord) (s : State) :
    (s.withCommand w).state = s.state := rfl
@[simp] theorem State.withCommand_life (w : CmdWord) (s : State) :
    (s.withCommand w).life = s.life := rfl
@[simp] theorem State.withCommand_inbox (w : CmdWord) (s : State) :
    (s.withCommand w).inbox = .command w :: s.inbox := rfl
@[simp] theorem State.withCommand_sent (w : CmdWord) (s : State) :
    (s.withCommand w).sent = s.sent := rfl
@[simp] theorem State.withCommand_draws (w : CmdWord) (s : State) :
    (s.withCommand w).draws = s.draws := rfl
@[simp] theorem State.withCommand_awaitingReset (w : CmdWord) (s : State) :
    (s.withCommand w).awaitingReset = false := rfl

@[simp] theorem State.withBusWords_valid (ws : List BusWord) (s : State) :
    (s.withBusWords ws).valid = s.valid := rfl
@[simp] theorem State.withBusWords_order (ws : List BusWord) (s : State) :
    (s.withBusWords ws).order = s.order := rfl
@[simp] theorem State.withBusWords_t1 (ws : List BusWord) (s : State) :
    (s.withBusWords ws).t1 = s.t1 := rfl
@[simp] theorem State.withBusWords_t2 (ws : List BusWord) (s : State) :
    (s.withBusWords ws).t2 = s.t2 := rfl
@[simp] theorem State.withBusWords_state (ws : List BusWord) (s : State) :
    (s.withBusWords ws).state = s.state := rfl
@[simp] theorem State.withBusWords_life (ws : List BusWord) (s : State) :
    (s.withBusWords ws).life = s.life := rfl
@[simp] theorem State.withBusWords_inbox (ws : List BusWord) (s : State) :
    (s.withBusWords ws).inbox = s.inbox ++ (busCommands ws).map HostAction.command := rfl
@[simp] theorem State.withBusWords_sent (ws : List BusWord) (s : State) :
    (s.withBusWords ws).sent = s.sent := rfl
@[simp] theorem State.withBusWords_draws (ws : List BusWord) (s : State) :
    (s.withBusWords ws).draws = s.draws := rfl
@[simp] theorem State.withBusWords_awaitingReset (ws : List BusWord) (s : State) :
    (s.withBusWords ws).awaitingReset = s.awaitingReset := rfl

end Sys2Proof.Machine
end

