-- ==== Sys2Proof/Laws/Ops.lean ====
section
/-! SUPPORT. What the shared operations and the meanings can do, said once each. -/

namespace Sys2Proof.Machine

/-! ### CONSTRUCT -/

/-- A construction that the checker refuses only answers with the checker's code (R69). -/
theorem construct_of_refused {n : Nat} {seed : Option Seed} (h : check n seed ≠ .ok) (s : State) :
    construct n seed s = s.fail (check n seed) := by
  unfold construct
  split
  · exact absurd ‹_› h
  · rfl

/-- A construction that the checker accepts loads the order's instance and answers OK (R68). -/
theorem construct_of_accepted {o : PrbsOrder} {seed : Option Seed}
    (h : check o.degree seed = .ok) (s : State) :
    construct o.degree seed s = (s.load o (initState o seed)).respond .ok := by
  simp [construct, h]

/-- Everything a construction can do. -/
theorem construct_cases (n : Nat) (seed : Option Seed) (s : State) :
    (check n seed ≠ .ok ∧ construct n seed s = s.fail (check n seed)) ∨
    (check n seed = .ok ∧ ∃ o : PrbsOrder, o.degree = n ∧
      construct n seed s = (s.load o (initState o seed)).respond .ok) := by
  by_cases h : check n seed = .ok
  · obtain ⟨o, rfl, -⟩ := (check_eq_ok_iff n seed).1 h
    exact .inr ⟨h, o, rfl, construct_of_accepted h s⟩
  · exact .inl ⟨h, construct_of_refused h s⟩

/-! ### Emitting bits -/

@[simp] theorem emitN_zero (s : State) : emitN 0 s = (s, []) := rfl

theorem emitN_succ (k : Nat) (s : State) :
    emitN (k + 1) s = ((emitN k (emit s).1).1, (emit s).2 :: (emitN k (emit s).1).2) := rfl

/-- Emitting bits writes STATE and LIFE alone. -/
theorem emitN_frame (k : Nat) (s : State) :
    (emitN k s).1 = { s with state := (emitN k s).1.state, life := (emitN k s).1.life } := by
  induction k generalizing s with
  | zero => rfl
  | succ k ih => rw [emitN_succ]; exact ih (emit s).1

/-- LIFE after emitting bits (R21). -/
theorem emitN_life (k : Nat) (s : State) :
    (emitN k s).1.life = if k = 0 then s.life else .running := by
  induction k generalizing s with
  | zero => rfl
  | succ k ih =>
    rw [emitN_succ, if_neg (Nat.succ_ne_zero k)]
    simp [ih]

@[simp] theorem emitN_length (k : Nat) (s : State) : (emitN k s).2.length = k := by
  induction k generalizing s with
  | zero => rfl
  | succ k ih => simp [emitN_succ, ih]

/-- Emitting `a + b` bits is emitting `a` and then `b`. -/
theorem emitN_add (a b : Nat) (s : State) :
    emitN (a + b) s =
      ((emitN b (emitN a s).1).1, (emitN a s).2 ++ (emitN b (emitN a s).1).2) := by
  induction a generalizing s with
  | zero => simp
  | succ a ih => rw [Nat.succ_add, emitN_succ, ih, emitN_succ]; simp

/-- Emitting depends on the registers it reads, not on what was sent or on LIFE: the bits. -/
theorem emitN_bits_congr (k : Nat) (s t : State) (ho : s.order = t.order) (h1 : s.t1 = t.t1)
    (h2 : s.t2 = t.t2) (hs : s.state = t.state) :
    (emitN k s).2 = (emitN k t).2 ∧ (emitN k s).1.state = (emitN k t).1.state := by
  induction k generalizing s t with
  | zero => exact ⟨rfl, hs⟩
  | succ k ih =>
    have := ih (emit s).1 (emit t).1 ho h1 h2 (by simp [ho, h1, h2, hs])
    simp only [emitN_succ]
    exact ⟨by rw [this.1]; simp [emit, ho, h1, h2, hs], this.2⟩

/-! ### Rows of the tap table -/

@[simp] theorem after_zero (r : TapRow) (x : ShiftWord) : r.after 0 x = x := rfl

theorem after_succ (r : TapRow) (k : Nat) (x : ShiftWord) :
    r.after (k + 1) x = r.after k (r.step x).1 := rfl

theorem after_succ' (r : TapRow) (k : Nat) (x : ShiftWord) :
    r.after (k + 1) x = (r.step (r.after k x)).1 := by
  simp [TapRow.after, Function.iterate_succ_apply']

theorem after_add (r : TapRow) (j k : Nat) (x : ShiftWord) :
    r.after (j + k) x = r.after j (r.after k x) := by
  simp [TapRow.after, Function.iterate_add_apply]

/-- Emitting bits with a row's order and taps in the registers: the register takes that many steps of
the row, and the bits are the row's (R91). -/
theorem emitN_of_row (r : TapRow) (k : Nat) (s : State) (ho : s.order = BitVec.ofNat 5 r.n)
    (h1 : s.t1 = BitVec.ofNat 5 r.t1) (h2 : s.t2 = BitVec.ofNat 5 r.t2) :
    (emitN k s).1.state = r.after k s.state ∧
      (emitN k s).2 = (List.range k).map (fun j => r.bitAt j s.state) := by
  induction k generalizing s with
  | zero => exact ⟨rfl, rfl⟩
  | succ k ih =>
    have hstep : lfsrStep s.order s.t1 s.t2 s.state = r.step s.state := by
      rw [ho, h1, h2]; rfl
    obtain ⟨ha, hb⟩ := ih (emit s).1 ho h1 h2
    refine ⟨?_, ?_⟩
    · rw [emitN_succ, ha, after_succ]; simp [hstep]
    · have hbit : (emit s).2 = r.bitAt 0 s.state := by
        simp only [emit, hstep, TapRow.bitAt, after_zero]
      have hrest : ∀ j, r.bitAt j (emit s).1.state = r.bitAt (j + 1) s.state := fun j => by
        rw [State.emit_state, hstep, TapRow.bitAt, TapRow.bitAt, after_succ]
      rw [emitN_succ, hb, List.range_succ_eq_map, List.map_cons, List.map_map, hbit]
      exact congrArg _ (List.map_congr_left fun j _ => hrest j)

/-! ### The meanings -/

@[simp] theorem exec_construct (n : Nat) (s : State) :
    exec (.construct n) s = .next (construct n none s) := rfl

@[simp] theorem exec_constructS (n : Nat) (seed : Seed) (s : State) :
    exec (.constructS n seed) s = .next (construct n (some seed) s) := rfl

@[simp] theorem exec_reserved (s : State) : exec .reserved s = .next (s.fail .errBadOp) := rfl

theorem exec_nextBit_of_valid {s : State} (h : s.valid = true) :
    exec .nextBit s = .next ((emit s).1.send [.resp (respWord .ok (emit s).2)]) := by
  simp [exec, execNextBit, h]

theorem exec_nextBit_of_not_valid {s : State} (h : s.valid = false) :
    exec .nextBit s = .next (s.fail .errNotConstructed) := by
  simp [exec, execNextBit, h]

theorem exec_generate_of_valid {s : State} (h : s.valid = true) (count : Nat) :
    exec (.generate count) s =
      .next (((emitN count s).1.send ((emitN count s).2.map Transfer.bitOut)).respond .ok) := by
  simp [exec, execGenerate, h]

theorem exec_generate_of_not_valid {s : State} (h : s.valid = false) (count : Nat) :
    exec (.generate count) s = .next (s.fail .errNotConstructed) := by
  simp [exec, execGenerate, h]

/-- A list of commands that begins with one that answers a next state goes on from it. -/
theorem runCommands_cons {i : Instr} {s t : State} (h : exec i s = .next t) (is : List Instr) :
    runCommands (i :: is) s = runCommands is t := by
  simp [runCommands, h]

/-- Everything `perform` can do. -/
theorem perform_next {a : HostAction} {s t : State} (h : perform a s = .next t) :
    (∃ w, a = .command w ∧ s.awaitingReset = false ∧ exec (decode w) s = .next t) ∨
    (a = .reset ∧ t = s.applyReset) ∨ (a = .powerUp ∧ t = s.applyPower) := by
  cases a with
  | command w =>
    by_cases hr : s.awaitingReset = true
    · simp [perform, hr] at h
    · exact .inl ⟨w, rfl, by simpa using hr, by simpa [perform, hr] using h⟩
  | reset => exact .inr (.inl ⟨rfl, by simpa [perform, eq_comm] using h⟩)
  | resetDuring w => simp [perform] at h
  | secondHost w => simp [perform] at h
  | powerUp => exact .inr (.inr ⟨rfl, by simpa [perform, eq_comm] using h⟩)

/-- Everything a step can do: nothing without a host action, else what the oldest action does. -/
theorem step_next {s t : State} (h : step s = .next t) :
    (s.inbox = [] ∧ t = s) ∨
    ∃ a rest, s.inbox = a :: rest ∧ perform a { s with inbox := rest } = .next t := by
  unfold step takeAction at h
  split at h
  · exact .inl ⟨‹_›, by simpa [eq_comm] using h⟩
  · exact .inr ⟨_, _, ‹_›, h⟩

end Sys2Proof.Machine
end

