-- ==== Sys2Proof/Laws/HostSide.lean ====
section
/-! SUPPORT. What the host reads: response words, the bits before them, and the counts of a split run. -/

namespace Sys2Proof.Machine

/-- Reading a response word gives back what it was made of (R52). -/
@[simp] theorem decodeResponse_respWord (st : Status) (b : Bool) :
    decodeResponse (respWord st b) = .next (st, b) := by
  cases st <;> cases b <;> rfl

@[simp] theorem respWord_status (st : Status) (b : Bool) :
    (respWord st b).extractLsb' 0 3 = st.code := by
  cases st <;> cases b <;> rfl

@[simp] theorem respWord_reserved (st : Status) (b : Bool) :
    (respWord st b).extractLsb' 4 4 = 0#4 := by
  cases st <;> cases b <;> rfl

theorem respWord_bit (st : Status) (b : Bool) : (respWord st b).getLsbD 3 = b := by
  cases st <;> cases b <;> rfl

theorem status_code_eq_zero_iff (st : Status) : st.code = 0#3 ↔ st = .ok := by
  cases st <;> decide

/-- Code 7 is no status (R101). -/
theorem status_code_ne_seven (st : Status) : st.code ≠ 7#3 := by
  cases st <;> decide

/-- Every response word the block makes is one it may send (R52, R101). -/
theorem respWord_sound (st : Status) (b : Bool) : (Transfer.resp (respWord st b)).sound = true := by
  cases st <;> cases b <;> decide

/-- The bits sent before a response word lead the list of transfers. -/
theorem leadingBits_append (bits : List Bool) (w : RespWord) :
    leadingBits (bits.map Transfer.bitOut ++ [.resp w]) = (bits, [.resp w]) := by
  induction bits with
  | nil => rfl
  | cons b bits ih => simp [leadingBits, ih]

/-- A run split into several GENERATEs has the count asked for (R93). -/
theorem generateCounts_sum (count : Nat) : (generateCounts count).sum = count := by
  unfold generateCounts
  split
  · simp
  · rw [List.sum_append, List.sum_replicate]
    simp
    omega

/-- Each GENERATE of a split run has a count that fits COUNT (R50, R93). -/
theorem generateCounts_fit (count : Nat) :
    ∀ c ∈ generateCounts count, (Instr.generate c).wellFormed = true := by
  intro c hc
  unfold generateCounts at hc
  split at hc
  · simp at hc
    simp [Instr.wellFormed]
    omega
  · simp only [List.mem_append, List.mem_replicate, List.mem_singleton] at hc
    rcases hc with ⟨-, rfl⟩ | rfl
    · decide
    · have := Nat.mod_lt count (show 4294967295 > 0 by omega)
      simp [Instr.wellFormed]
      omega

end Sys2Proof.Machine
end

