-- ==== Sys2Proof/Laws/Lfsr.lean ====
section
/-! SUPPORT. What the LFSR step does, bit by bit, for any registers. -/

namespace Sys2Proof.Machine

/-- The bit at a position that exists (R7, R76). -/
theorem tapBit_of_pos {p : OrderWord} (h : p ≠ 0#5) (s : ShiftWord) :
    tapBit p s = s.getLsbD (p.toNat - 1) := by
  simp [tapBit, h]

/-- The emitted bit of a step is the feedback bit (R77, R78). -/
theorem lfsrStep_snd (n t1 t2 : OrderWord) (s : ShiftWord) :
    (lfsrStep n t1 t2 s).2 = (tapBit t1 s ^^ tapBit t2 s) := rfl

/-- Bit `i` of the state after a step (R79): the mask cuts it off at the order, bit 0 is the feedback
bit, and every other bit is the one below it. -/
theorem lfsrStep_fst_getLsbD (n t1 t2 : OrderWord) (s : ShiftWord) (i : Nat) :
    (lfsrStep n t1 t2 s).1.getLsbD i =
      (decide (i < n.toNat) &&
        if i = 0 then (tapBit t1 s ^^ tapBit t2 s) else s.getLsbD (i - 1)) := by
  have hn : n.toNat ≤ 31 := by have := n.isLt; omega
  simp only [lfsrStep, BitVec.getLsbD_and, BitVec.getLsbD_or, BitVec.getLsbD_shiftLeft,
    BitVec.getLsbD_setWidth, mask_getLsbD hn, BitVec.getLsbD_ofBool]
  by_cases h : i < n.toNat
  · have h31 : i < 31 := by omega
    rcases Nat.eq_zero_or_pos i with rfl | hi
    · simp [Bool.and_comm]
    · simp [h, h31, Nat.ne_of_gt hi, Nat.not_lt_of_le hi]
  · simp [h]

end Sys2Proof.Machine
end

