-- ==== Sys2Proof/Laws/Linear.lean ====
section
/-! SUPPORT. An order's step is linear over exclusive or, so that many steps can be computed as a table of
what they make of each single bit. -/

namespace Sys2Proof.Machine

/-- An order's step bit by bit, in the row's own numbers (R79). -/
theorem rowOf_step_getLsbD (o : PrbsOrder) (x : ShiftWord) (i : Nat) :
    ((rowOf o).step x).1.getLsbD i =
      (decide (i < o.degree) && if i = 0 then ((rowOf o).step x).2 else x.getLsbD (i - 1)) := by
  rw [rowOf_step, lfsrStep_fst_getLsbD, o.field_toNat]
  rfl

/-- The bit that an order's step emits, in the row's own numbers (R76, R77). -/
theorem rowOf_step_snd (o : PrbsOrder) (x : ShiftWord) :
    ((rowOf o).step x).2 =
      (x.getLsbD ((rowOf o).t1 - 1) ^^ x.getLsbD ((rowOf o).t2 - 1)) := by
  rw [rowOf_step, lfsrStep_snd]
  cases o <;> exact congrArg₂ _ (tapBit_of_pos (by decide) x) (tapBit_of_pos (by decide) x)

/-- The step of an exclusive or is the exclusive or of the steps. -/
theorem rowOf_step_xor (o : PrbsOrder) (x y : ShiftWord) :
    ((rowOf o).step (x ^^^ y)).1 = ((rowOf o).step x).1 ^^^ ((rowOf o).step y).1 := by
  refine BitVec.eq_of_getLsbD_eq fun i _ => ?_
  simp only [BitVec.getLsbD_xor, rowOf_step_getLsbD, rowOf_step_snd]
  by_cases h : i < o.degree
  · by_cases h0 : i = 0
    · simp only [h0, if_true]
      cases x.getLsbD ((rowOf o).t1 - 1) <;> cases x.getLsbD ((rowOf o).t2 - 1) <;>
        cases y.getLsbD ((rowOf o).t1 - 1) <;> cases y.getLsbD ((rowOf o).t2 - 1) <;> simp
    · simp [h, h0]
  · simp [h]

/-- So it is for any number of steps. -/
theorem rowOf_after_xor (o : PrbsOrder) (k : Nat) (x y : ShiftWord) :
    (rowOf o).after k (x ^^^ y) = (rowOf o).after k x ^^^ (rowOf o).after k y := by
  induction k generalizing x y with
  | zero => rfl
  | succ k ih => rw [after_succ, rowOf_step_xor, ih]; rfl

/-- What a table of images of the single bits, lowest first, makes of a value. -/
def applyTable : List ShiftWord → ShiftWord → ShiftWord
  | [], _ => 0#31
  | c :: cs, x => (if x.getLsbD 0 then c else 0#31) ^^^ applyTable cs (x >>> 1)

theorem applyTable_zero (M : List ShiftWord) : applyTable M 0#31 = 0#31 := by
  induction M with
  | nil => rfl
  | cons c cs ih => simp [applyTable, ih]

theorem applyTable_xor (M : List ShiftWord) (x y : ShiftWord) :
    applyTable M (x ^^^ y) = applyTable M x ^^^ applyTable M y := by
  induction M generalizing x y with
  | nil => simp [applyTable]
  | cons c cs ih =>
    have hs : (x ^^^ y) >>> 1 = (x >>> 1) ^^^ (y >>> 1) := BitVec.ushiftRight_xor_distrib x y 1
    simp only [applyTable, hs, ih, BitVec.getLsbD_xor]
    have hcancel : ∀ a b : ShiftWord, a ^^^ b = c ^^^ a ^^^ (c ^^^ b) := fun a b => by
      rw [BitVec.xor_comm c a, BitVec.xor_assoc, ← BitVec.xor_assoc c c b]
      simp
    cases x.getLsbD 0 <;> cases y.getLsbD 0
    · simp
    · simp only [Bool.false_xor, if_true, Bool.false_eq_true, if_false, BitVec.zero_xor]
      ac_rfl
    · simp only [Bool.true_xor, Bool.not_false, if_true, Bool.false_eq_true, if_false,
        BitVec.zero_xor]
      ac_rfl
    · simpa using hcancel _ _

/-- The table of doing `N` and then `M`. -/
def thenTable (M N : List ShiftWord) : List ShiftWord := N.map (applyTable M)

theorem applyTable_thenTable (M N : List ShiftWord) (x : ShiftWord) :
    applyTable (thenTable M N) x = applyTable M (applyTable N x) := by
  induction N generalizing x with
  | nil => simp [thenTable, applyTable, applyTable_zero]
  | cons c cs ih =>
    have ih := ih (x >>> 1)
    simp only [thenTable] at ih
    simp only [thenTable, List.map_cons, applyTable, applyTable_xor, ih]
    cases x.getLsbD 0 <;> simp [applyTable_zero]

/-- The table of a function. -/
def tableOf (f : ShiftWord → ShiftWord) (n : Nat) : List ShiftWord :=
  (List.range n).map (fun i => f (1#31 <<< i))

/-- The table of a function that is linear over exclusive or gives its values on `n`-bit arguments. -/
theorem applyTable_tableOf (f : ShiftWord → ShiftWord) (h0 : f 0#31 = 0#31)
    (hf : ∀ x y, f (x ^^^ y) = f x ^^^ f y) (n : Nat) (x : ShiftWord) (hx : x.toNat < 2 ^ n) :
    applyTable (tableOf f n) x = f x := by
  induction n generalizing f x with
  | zero =>
    have hx0 : x = 0#31 := BitVec.eq_of_toNat_eq (by simpa using hx)
    subst hx0
    simp [tableOf, applyTable, h0]
  | succ n ih =>
    have hsplit : x = (if x.getLsbD 0 then 1#31 else 0#31) ^^^ ((x >>> 1) <<< 1) := by
      refine BitVec.eq_of_getLsbD_eq fun i hi => ?_
      rcases i with _ | i
      · cases x.getLsbD 0 <;> simp
      · have : (if x.getLsbD 0 then 1#31 else 0#31).getLsbD (i + 1) = false := by
          cases x.getLsbD 0 <;> simp [BitVec.getLsbD_one]
        simp only [BitVec.getLsbD_xor, this, Bool.false_xor, BitVec.getLsbD_shiftLeft, hi,
          BitVec.getLsbD_ushiftRight, decide_true, Bool.true_and]
        simp [Nat.add_comm]
    have hshift : ∀ a b : ShiftWord, (a ^^^ b) <<< 1 = (a <<< 1) ^^^ (b <<< 1) := fun a b =>
      BitVec.shiftLeft_xor_distrib a b 1
    have hrest := ih (fun y => f (y <<< 1)) (by simpa using h0)
      (fun a b => by simp only [hshift, hf]) (x >>> 1) (by
        rw [BitVec.toNat_ushiftRight, Nat.shiftRight_eq_div_pow]; omega)
    have htail : tableOf f (n + 1) = f 1#31 :: tableOf (fun y => f (y <<< 1)) n := by
      simp [tableOf, List.range_succ_eq_map, Function.comp_def, BitVec.shiftLeft_add]
    rw [htail, applyTable, hrest]
    conv_rhs => rw [hsplit, hf]
    cases x.getLsbD 0 <;> simp [h0]

/-- Squaring a table `k` times: the table of doing it `2^k` times over. -/
def squareTable : Nat → List ShiftWord → List ShiftWord
  | 0, M => M
  | k + 1, M => squareTable k (thenTable M M)

end Sys2Proof.Machine
end

