-- ==== Sys2Proof/Laws/PerInstr.lean ====
section
/-! SUPPORT. What holds of the encoding of every command, constructor by constructor. -/

namespace Sys2Proof.Laws.EncodedOperation

/-- The OP of each command (R46). -/
def opOf : Instr → BitVec 2
  | .construct _ => 0b00#2
  | .constructS _ _ => 0b00#2
  | .nextBit => 0b01#2
  | .generate _ => 0b10#2
  | .reserved => 0b11#2

/-- The encoder puts the command's own OP in its word, and sets SP for CONSTRUCT.S alone (R46, R48). -/
def Statement (i : Instr) : Prop :=
  cmdOp (encode i) = opOf i ∧ (cmdSp (encode i) = true ↔ ∃ n seed, i = .constructS n seed)

theorem construct (n : Nat) : Statement (.construct n) := by
  simp [Statement, encode, opOf]

theorem constructS (n : Nat) (seed : Seed) : Statement (.constructS n seed) := by
  cases seed <;> simp [Statement, encode, opOf]

theorem nextBit : Statement .nextBit := by
  simp [Statement, encode, opOf]

theorem generate (count : Nat) : Statement (.generate count) := by
  simp [Statement, encode, opOf]

theorem reserved : Statement .reserved := by
  simp [Statement, encode, opOf]

end Sys2Proof.Laws.EncodedOperation
end

