-- ==== Sys2Proof/Laws/Ports.lean ====
section
/-! SUPPORT. What one clock edge of the ports can do (spec/30_encoding.md rules R43, R44), case by case. -/

namespace Sys2Proof.Machine

/-- An edge with `rst` = 1 (R116, R118; log entry 17). -/
theorem edge_of_rst {h : HostSignals} (hr : h.rst = true) (p : PortState) :
    p.edge h = .next (PortState.idle p.block.applyReset) := by
  simp [PortState.edge, hr]

/-- An edge of an idle block: it accepts what `cmd` offers, or stays (R43, R115). -/
theorem edge_of_idle {h : HostSignals} (hr : h.rst = false) (s : State) :
    (PortState.idle s).edge h =
      if h.cmdValid then (PortState.idle s).accept h.cmd else .next (PortState.idle s) := by
  simp [PortState.edge, PortState.idle, hr]

/-- Accepting a command whose meaning answers a next state (R44). -/
theorem accept_of_next {w : CmdWord} {s t : State} (hs : s.awaitingReset = false)
    (h : exec (decode w) s = .next t) :
    (PortState.idle s).accept w =
      .next ⟨{ t with sent := s.sent }, t.sent.drop s.sent.length⟩ := by
  simp [PortState.accept, PortState.idle, hs, h]

/-- Everything an edge without reset can do while a command is in progress: the first item owed moves, or
stays offered (R43, R124). -/
theorem edge_in_progress {h : HostSignals} (hr : h.rst = false) (s : State) (x : Transfer)
    (rest : List Transfer) :
    (PortState.mk s (x :: rest)).edge h = .next ⟨s.send [x], rest⟩ ∨
      (PortState.mk s (x :: rest)).edge h = .next ⟨s, x :: rest⟩ ∧
        (h.bitReady = false ∨ h.respReady = false) := by
  cases x with
  | bitOut b => cases hb : h.bitReady <;> simp [PortState.edge, hr, hb]
  | resp w => cases hb : h.respReady <;> simp [PortState.edge, hr, hb]

/-- Edges at which the host takes what is offered move that many items, in order (R43, R44). -/
theorem edges_of_ready {hs : List HostSignals} {s : State} {owed : List Transfer}
    (hh : ∀ h ∈ hs, h.rst = false ∧ h.respReady = true ∧ h.bitReady = true)
    (hl : hs.length ≤ owed.length) :
    (PortState.mk s owed).edges hs =
      .next ⟨s.send (owed.take hs.length), owed.drop hs.length⟩ := by
  induction hs generalizing s owed with
  | nil => simp [PortState.edges, State.send]
  | cons h hs ih =>
    cases owed with
    | nil => simp at hl
    | cons x rest =>
      obtain ⟨hr, hresp, hbit⟩ := hh h (by simp)
      have hmove : (PortState.mk s (x :: rest)).edge h = .next ⟨s.send [x], rest⟩ := by
        simpa [hresp, hbit] using edge_in_progress hr s x rest
      simp only [PortState.edges, hmove]
      rw [ih (fun g hg => hh g (by simp [hg])) (by simpa using hl)]
      simp [State.send]

end Sys2Proof.Machine
end

