-- ==== Sys2Proof/Laws/System.lean ====
section
/-! SUPPORT. What can happen to one block of a system (spec/60_exceptions.md rule R112), said once. -/

namespace Sys2Proof.Machine

variable {Block : Type} {f g : Block → Host.Outcome Block Fault Refusal}

/-- What happens to block `k` answers a next system exactly when it answers a next block alone, and then
only that block differs. -/
theorem onBlock_next_iff {system system' : List Block} {k : Fin system.length} :
    onBlock f system k = .next system' ↔
      ∃ b, f system[k] = .next b ∧ system' = system.set k b := by
  unfold onBlock
  cases f system[k] <;> simp [eq_comm]

/-- The same, for a block whose next state is known. -/
theorem onBlock_of_next {system : List Block} {k : Fin system.length} {b : Block}
    (h : f system[k] = .next b) : onBlock f system k = .next (system.set k b) :=
  onBlock_next_iff.mpr ⟨b, h, rfl⟩

/-- Every other block stays as it was, and the system keeps its size. -/
theorem onBlock_frame {system system' : List Block} {k : Fin system.length}
    (h : onBlock f system k = .next system') :
    system'.length = system.length ∧ ∀ j, j ≠ k.val → system'[j]? = system[j]? := by
  obtain ⟨b, -, rfl⟩ := onBlock_next_iff.mp h
  exact ⟨by simp, fun j hj => List.getElem?_set_ne hj.symm⟩

@[simp] theorem systemReset_length : systemReset.length = Config.nInst := by simp [systemReset]

/-- Block `k` draws from place `k` on, so different blocks of the reset system differ in their places. -/
@[simp] theorem systemReset_getElem (k : Nat) (hk : k < systemReset.length) :
    systemReset[k] = { State.reset with draws := k } := by simp [systemReset]

/-- A command leaves a block's place in the stream of draws. -/
theorem exec_draws {i : Instr} {s t : State} (h : exec i s = .next t) : t.draws = s.draws := by
  cases i with
  | construct n =>
    rw [exec_construct] at h
    obtain ⟨-, e⟩ | ⟨-, o, -, e⟩ := construct_cases n none s <;> · rw [e] at h; cases h; rfl
  | constructS n seed =>
    rw [exec_constructS] at h
    obtain ⟨-, e⟩ | ⟨-, o, -, e⟩ := construct_cases n (some seed) s <;> · rw [e] at h; cases h; rfl
  | nextBit =>
    cases hv : s.valid
    · rw [exec_nextBit_of_not_valid hv] at h; cases h; rfl
    · rw [exec_nextBit_of_valid hv] at h; cases h; rfl
  | generate count =>
    cases hv : s.valid
    · rw [exec_generate_of_not_valid hv] at h; cases h; rfl
    · rw [exec_generate_of_valid hv, Host.Outcome.next.injEq] at h
      rw [← h, State.respond_draws, State.send_draws, emitN_frame]
  | reserved => cases h; rfl

/-- A step leaves a block's place modulo `N_INST`, so no two blocks of a system ever draw the same value. -/
theorem step_draws_mod {s t : State} (h : step s = .next t) :
    t.draws % Config.nInst = s.draws % Config.nInst := by
  obtain ⟨-, rfl⟩ | ⟨a, rest, -, h⟩ := step_next h
  · rfl
  · obtain ⟨w, -, -, h⟩ | ⟨-, rfl⟩ | ⟨-, rfl⟩ := perform_next h
    · rw [exec_draws h]
    · simp
    · simp

end Sys2Proof.Machine
end

