-- ==== Sys2Proof/Tests/Slice0.lean ====
section
/-! SUPPORT. The model's own tests. Words and results are those of spec/30_encoding.md rule R60 and
spec/95_test_vectors.md; the witnesses show states and operands that meet the hypotheses of the
statements. -/

namespace Sys2Proof.Tests

open Sys2Proof.Machine

/-! ### Well-formedness: what each check refuses, and the boundary it accepts -/

theorem test_wellFormed_construct_order :
    (Instr.construct 32).wellFormed = false ∧ (Instr.construct 31).wellFormed = true := by decide

theorem test_wellFormed_constructS_order :
    (Instr.constructS 32 .nonInteger).wellFormed = false ∧
      (Instr.constructS 0 .nonInteger).wellFormed = true := by decide

theorem test_wellFormed_seed_above :
    (Instr.constructS 7 (.integer 9223372036854775808)).wellFormed = false ∧
      (Instr.constructS 7 (.integer 9223372036854775807)).wellFormed = true := by decide

theorem test_wellFormed_seed_below :
    (Instr.constructS 7 (.integer (-9223372036854775809))).wellFormed = false ∧
      (Instr.constructS 7 (.integer (-9223372036854775808))).wellFormed = true := by decide

theorem test_wellFormed_count :
    (Instr.generate 4294967296).wellFormed = false ∧
      (Instr.generate 4294967295).wellFormed = true := by decide

/-! ### Decoding: words written from the fields of R45 (R60; 95 sections 2.4, 2.5) -/

/-- OP = 00, ORDER = 00111, SP = 0. -/
theorem test_decode_construct : decode 0b000011100#128 = .construct 7 := by decide

/-- OP = 00, ORDER = 01001, SP = 1, ST = 0, SEED = 0x1FF. -/
theorem test_decode_constructS :
    decode 0x00000000000001FF00000000000000A4#128 = .constructS 9 (.integer 511) := by decide

/-- SEED is two's complement: all ones is -1. -/
theorem test_decode_constructS_negative :
    decode 0xFFFFFFFFFFFFFFFF000000000000009C#128 = .constructS 7 (.integer (-1)) := by decide

/-- ST = 1: SEED is not read. -/
theorem test_decode_constructS_nonint :
    decode 0x0000000000000005000000000000019C#128 = .constructS 7 .nonInteger := by decide

/-- OP = 01; every other bit is ignored (95 section 2.5). -/
theorem test_decode_nextBit : decode 0x123456789ABCDEF000000003FFFFFE01#128 = .nextBit := by decide

/-- OP = 10, COUNT = 4, with bits set in `[31:9]` (95 section 2.5). -/
theorem test_decode_generate :
    decode 0x0000000000000000000000040000FE02#128 = .generate 4 := by decide

/-- OP = 11 (95 section 2.4). -/
theorem test_decode_reserved :
    decode 0xFFFFFFFFFFFFFFFFFFFFFFFFFFFFFFFF#128 = .reserved := by decide

/-- Four interconnect words make a command, word 0 first; three make none (R33). -/
theorem test_decodeBus :
    decodeBus [0x000000A4#32, 0#32, 0x000001FF#32, 0#32, 0x1#32] =
        .ok (.constructS 9 (.integer 511), [0x1#32]) ∧
      decodeBus [0x000000A4#32, 0#32, 0x000001FF#32] = .error .incompleteCommand := by
  decide

/-- The opcode table's words, 16 bits wide (R55). -/
theorem test_decodeTableWord :
    [0x000, 0x080, 0x001, 0x002, 0x003].map (decodeTableWord 16) =
      [some (.construct 0), some (.constructS 0 (.integer 0)), some .nextBit,
        some (.generate 0), some .reserved] := by decide

/-! ### Single commands -/

/-- A small state: an instance of order 7 whose register holds `x`. -/
def order7 (x : ShiftWord) : State :=
  { State.reset with
    valid := true
    order := 7#5
    t1 := 7#5
    t2 := 6#5
    state := x
    life := .constructed }

/-- The state after one step, or the state before it where the step stops. -/
def afterStep (s : State) : State :=
  match step s with
  | .next t => t
  | .fault _ => s
  | .refused _ => s

/-- `construct 7` as the first command after reset (95 section 2.1). -/
theorem test_construct_7 :
    afterStep (State.reset.withFetchWord 16 0x1C) =
      { order7 0x7F#31 with sent := [.resp 0x00#8] } := by decide

/-- `construct 8` while an instance runs: ERR_ORDER, no change (95 section 2.1). -/
theorem test_construct_reserved_order :
    afterStep ((order7 0x12#31).withFetchWord 16 0x20) =
      { order7 0x12#31 with sent := [.resp 0x04#8] } := by decide

/-- `construct.s 31, 0x80000000`: out of range, not truncated and not negative (95 section 2.1). -/
theorem test_constructS_range :
    afterStep (State.reset.withCommand 0x000000008000000000000000000000FC#128) =
      { State.reset with sent := [.resp 0x03#8] } := by decide

/-- `construct.s 11, 0x5A5` ends an instance of order 7 (95 section 2.1). -/
theorem test_constructS_replaces :
    afterStep ((order7 0x01#31).withCommand 0x00000000000005A500000000000000AC#128) =
      { State.reset with
        valid := true
        order := 11#5
        t1 := 11#5
        t2 := 9#5
        state := 0x5A5#31
        sent := [.resp 0x00#8] } := by decide

/-- NEXT_BIT from the top bit alone (95 section 2.2). -/
theorem test_nextBit_top :
    afterStep ((order7 0x40#31).withFetchWord 16 0x001) =
      { order7 0x01#31 with life := .running, sent := [.resp 0x08#8] } := by decide

/-- NEXT_BIT right after reset (95 program P2). -/
theorem test_nextBit_after_reset :
    afterStep (State.reset.withFetchWord 16 0x001) =
      { State.reset with sent := [.resp 0x05#8] } := by decide

/-- `generate 7` from the default seed (95 program P1). -/
theorem test_generate_7 :
    afterStep ((order7 0x7F#31).withCommand 0x00000000000000000000000700000002#128) =
      { order7 0x01#31 with
        life := .running
        sent := [.bitOut false, .bitOut false, .bitOut false, .bitOut false, .bitOut false,
          .bitOut false, .bitOut true, .resp 0x00#8] } := by decide

/-- `generate 0` leaves STATE and LIFE (95 section 2.3). -/
theorem test_generate_0 :
    afterStep ((order7 0x7F#31).withFetchWord 16 0x002) =
      { order7 0x7F#31 with sent := [.resp 0x00#8] } := by decide

/-- OP = 11 (95 section 2.4). -/
theorem test_reserved :
    afterStep ((order7 0x7F#31).withFetchWord 16 0x003) =
      { order7 0x7F#31 with sent := [.resp 0x06#8] } := by decide

/-- A response decoder that sees STATUS = 7 faults (93 U9). -/
theorem test_decodeResponse :
    (match decodeResponse 0x07#8 with | .fault r => some r | _ => none) = some .reservedStatus ∧
      (match decodeResponse 0x10#8 with | .fault r => some r | _ => none) =
        some .reservedResponseBits ∧
      (match decodeResponse 0x08#8 with | .next p => some p | _ => none) = some (.ok, true) := by
  decide

/-- The driver: PRBS7 from the default seed, 9 bits (R94; 95 program P1). -/
theorem test_prbs :
    (match prbs 7 none 9 State.reset with | .next p => some p.2 | _ => none) =
      some (.bits [false, false, false, false, false, false, true, false, false]) := by decide

/-- Assembler text that names no command, and literals that do not fit (R57). -/
theorem test_assemble :
    assemble "  ; a comment" = some .blank ∧ assemble "construct 32" = none ∧
      assemble "generate 4294967296" = none ∧
      assemble "prbs 9, -3, 0b101" = some (.prbs 9 (some (.integer (-3))) 5) ∧
      assemble "construct 8 ; rejected by the block" = some (.command (.construct 8)) := by decide

/-! ### Witnesses: states and operands that meet the hypotheses of the statements -/

/-- DecodeOfEncodeIsTheCommand. -/
theorem test_witness_decode_encode :
    (Instr.constructS 31 (.integer (-9223372036854775808))).wellFormed = true := by decide

/-- UnreadBitsAreIgnored, one pair of different words for each clause. -/
theorem test_witness_unread_bits :
    (let w := 0x0000000000000005000000000000019C#128; let w' := 0x0000000000000006000000000000039C#128
     w ≠ w' ∧ w.extractLsb' 0 2 = 0b00#2 ∧ w'.extractLsb' 0 2 = 0b00#2 ∧
      w.extractLsb' 2 5 = w'.extractLsb' 2 5 ∧ w.getLsbD 7 = w'.getLsbD 7 ∧
      (w.getLsbD 7 = true → w.getLsbD 8 = w'.getLsbD 8) ∧
      (w.getLsbD 7 = true → w.getLsbD 8 = false →
        w.extractLsb' 64 64 = w'.extractLsb' 64 64)) ∧
    (let w := 0x1#128; let w' := 0x5#128
     w.extractLsb' 0 2 = 0b01#2 ∧ w'.extractLsb' 0 2 = 0b01#2) ∧
    (let w := 0x2#128; let w' := 0x6#128
     w.extractLsb' 0 2 = 0b10#2 ∧ w'.extractLsb' 0 2 = 0b10#2 ∧
      w.extractLsb' 32 32 = w'.extractLsb' 32 32) ∧
    (let w := 0x3#128; let w' := 0x7#128
     w.extractLsb' 0 2 = 0b11#2 ∧ w'.extractLsb' 0 2 = 0b11#2) := by decide

/-- EveryWordDispatchesToOneOutcome: a word for each clause. -/
theorem test_witness_dispatch :
    (0x1C#128).extractLsb' 0 2 = 0b00#2 ∧ (0x1C#128).getLsbD 7 = false ∧
      (0x19C#128).getLsbD 7 = true ∧ (0x19C#128).getLsbD 8 = true ∧
      (0x9C#128).extractLsb' 0 2 = 0b00#2 ∧ (0x9C#128).getLsbD 7 = true ∧
      (0x9C#128).getLsbD 8 = false ∧ (0x1#128).extractLsb' 0 2 = 0b01#2 ∧
      (0x2#128).extractLsb' 0 2 = 0b10#2 ∧ (0x3#128).extractLsb' 0 2 = 0b11#2 := by decide

/-- FourBusWordsCarryOneCommand: the longest tail that is no command. -/
theorem test_witness_bus_tail : [(1#32 : BusWord), 2#32, 3#32].length < 4 := by decide

/-- ValidityCheckerStatuses, SeedBoundsOfEachOrder: orders beside the legal ones, seeds at each bound. -/
theorem test_witness_checker :
    6 ∉ [7, 9, 11, 15, 23, 31] ∧ 8 ∉ [7, 9, 11, 15, 23, 31] ∧ 30 ∉ [7, 9, 11, 15, 23, 31] ∧
      (31 : Nat) ∈ [7, 9, 11, 15, 23, 31] ∧ (0 : Int) ≤ 0 ∧ (128 : Int) > 2 ^ 7 - 1 ∧
      (0 : Int) < 1 ∧ (127 : Int) ≤ 2 ^ 7 - 1 := by decide

/-- ReservedOrderFails: `construct 8`, `construct 30` and `construct.s 8, 0`. -/
theorem test_witness_reserved_order :
    [0x20#128, 0x78#128, 0xA0#128].all (fun w => decide (BitVec.extractLsb' 0 2 w = 0b00#2 ∧
      (BitVec.extractLsb' 2 5 w).toNat ∉ [7, 9, 11, 15, 23, 31])) = true := by decide

/-- NoSeedStartsFromAllOnes: `construct 7` with ST = 1. -/
theorem test_witness_no_seed :
    ⟨7, 7, 6⟩ ∈ tapRows ∧ (0x11C#128).extractLsb' 0 2 = 0b00#2 ∧
      (0x11C#128).extractLsb' 2 5 = BitVec.ofNat 5 7 ∧ (0x11C#128).getLsbD 7 = false := by decide

/-- GivenSeedIsCheckedThenLoaded: seeds for each clause, at the bounds: not an integer, 0, 128, 1 and
127. -/
theorem test_witness_given_seed :
    [0x19C#128, 0x9C#128, 0x0000000000000080000000000000009C#128,
        0x0000000000000001000000000000009C#128, 0x000000000000007F000000000000009C#128].all
      (fun w => decide (BitVec.extractLsb' 0 2 w = 0b00#2 ∧
        BitVec.extractLsb' 2 5 w = BitVec.ofNat 5 7 ∧ BitVec.getLsbD w 7 = true)) = true ∧
    (0x19C#128).getLsbD 8 = true ∧ (0x9C#128).getLsbD 8 = false ∧
    ((0x9C#128).extractLsb' 64 64).toInt ≤ 0 ∧
    ((0x0000000000000080000000000000009C#128).extractLsb' 64 64).toInt > 2 ^ 7 - 1 ∧
    0 < ((0x0000000000000001000000000000009C#128).extractLsb' 64 64).toInt ∧
    ((0x000000000000007F000000000000009C#128).extractLsb' 64 64).toInt ≤ 2 ^ 7 - 1 := by decide

/-- AcceptedConstructionLoadsEveryRegister, AcceptedConstructionEstablishesInvariant,
SequenceDependsOnlyOnConstruction, RepeatedCommandsAndTheirEffects, LifeRecordsTheLifecycle,
DriverConstructsThenGenerates: accepted constructions. -/
theorem test_witness_accepted :
    check 31 none = .ok ∧ check 7 (some (.integer 127)) = .ok ∧
      check 7 (some (.integer 1)) = .ok ∧ startsInstance (.construct 31) = true ∧
      startsInstance (.constructS 7 (.integer 1)) = true := by decide

/-- RefusedConstructionWritesNothing, DriverConstructsThenGenerates: refused ones. -/
theorem test_witness_refused :
    check 8 none ≠ .ok ∧ check 7 (some .nonInteger) ≠ .ok ∧ check 7 (some (.integer 128)) ≠ .ok := by
  decide

/-- The statements about an instance of a row: instances at both ends of the register's range. -/
theorem test_witness_held :
    ⟨7, 7, 6⟩ ∈ tapRows ∧ TapRow.HeldBy ⟨7, 7, 6⟩ (order7 0x01#31) ∧
      TapRow.HeldBy ⟨7, 7, 6⟩ (order7 0x7F#31) ∧
      TapRow.HeldBy ⟨9, 9, 5⟩ { order7 0x1FF#31 with order := 9#5, t1 := 9#5, t2 := 5#5 } := by decide

/-- NextBitWithoutInstanceFails, NextBitEmitsTheFeedbackBit, GenerateEmitsCountBits and the other
statements on VALID: a state with each value of it, and words of each operation. -/
theorem test_witness_valid :
    State.reset.valid = false ∧ (order7 0x01#31).valid = true ∧
      (0x1#128).extractLsb' 0 2 = 0b01#2 ∧ (0x2#128).extractLsb' 0 2 = 0b10#2 ∧
      (0x3#128).extractLsb' 0 2 = 0b11#2 := by decide

/-- StepShiftsInTheFeedbackBit: bit positions in each clause, at the ends of their ranges. -/
theorem test_witness_step_bits :
    (1 ≤ 1 ∧ 1 ≤ 7 - 1) ∧ (1 ≤ 6 ∧ 6 ≤ 7 - 1) ∧ (7 ≤ 7 ∧ 7 ≤ 30) ∧ (7 ≤ 30 ∧ 30 ≤ 30) := by decide

/-- StepKeepsTheWidth, StateIsNeverAllZero, StepIsAPermutation, PeriodIsMaximal, OnePeriodIsBalanced:
legal register contents. -/
theorem test_witness_legal :
    TapRow.Legal ⟨7, 7, 6⟩ 0x7F#31 ∧ TapRow.Legal ⟨9, 9, 5⟩ 0x001#31 ∧
      (0x7F#31).toNat < 2 ^ 7 ∧ 0 < (0x7F#31).toNat ∧
      TapRow.Legal ⟨7, 7, 6⟩ (TapRow.step ⟨7, 7, 6⟩ 0x7F#31).1 := by decide

/-- StepIsAPermutation: the bit that completes the predecessor of 1. -/
theorem test_witness_predecessor :
    (TapRow.step ⟨7, 7, 6⟩
      ((0x01#31 >>> 1) ||| ((BitVec.ofBool true).setWidth 31 <<< (7 - 1)))).2 = (0x01#31).getLsbD 0 := by
  decide

/-- PeriodIsMaximal: numbers of steps between none and a whole period. -/
theorem test_witness_period :
    (0 < 1 ∧ 1 < 2 ^ 7 - 1) ∧ (0 < 126 ∧ 126 < 2 ^ 7 - 1) := by decide

/-- EmittedBitsFollowTheRecurrence: a sequence that is the emitted bits from 0 on and the register's before
that. -/
theorem test_witness_recurrence :
    ∃ a : Int → Bool, (∀ k : Nat, a k = TapRow.bitAt ⟨7, 7, 6⟩ k 0x7F#31) ∧
      ∀ p : Nat, 1 ≤ p → p ≤ 7 → a (-(p : Int)) = (0x7F#31).getLsbD (p - 1) := by
  refine ⟨fun z => if 0 ≤ z then TapRow.bitAt ⟨7, 7, 6⟩ z.toNat 0x7F#31
    else (0x7F#31).getLsbD ((-z).toNat - 1), fun k => by simp, fun p h1 _ => ?_⟩
  have hneg : ¬ (0 ≤ -(p : Int)) := by omega
  simp only [hneg, if_false, Int.neg_neg, Int.toNat_natCast]

/-- StateIsNeverAllZero, StateReturnsAfterWholePeriods: a run of one whole period. -/
theorem test_witness_emitting_run :
    (∀ i ∈ [Instr.nextBit, .generate 126], emits i = true) ∧
      ([Instr.nextBit, .generate 126].map emittedBy).sum = 2 ^ 7 - 1 := by decide

/-- GenerateSplitsAnywhere: counts that add up to the largest. -/
theorem test_witness_split : 1 + 4294967294 ≤ 2 ^ 32 - 1 := by decide

/-- BitsRepeatAfterOnePeriod: a count beyond one period. -/
theorem test_witness_beyond_period : 0 < 128 - (2 ^ 7 - 1) := by decide

/-- CommandsWriteOnlyTheirWriteSets, OrderAndTapsAreImmutable: commands that start no instance. -/
theorem test_witness_write_sets :
    (∀ i ∈ [Instr.construct 8, .constructS 7 (.integer 0), .nextBit, .generate 0, .reserved],
      startsInstance i = false) ∧
      emits (.construct 8) = false ∧ emits .reserved = false ∧
      ({ State.reset with inbox := [.reset] } : State).inbox = .reset :: [] := by decide

/-- EveryCommandGetsOneResponseWord, FailingCommandChangesNoRegister: response words that meet each
clause's hypothesis. -/
theorem test_witness_responses :
    (0x08#8).getLsbD 3 = true ∧ (0x05#8).extractLsb' 0 3 ≠ 0#3 ∧
      (0x00#8).extractLsb' 0 3 = 0#3 := by decide

/-- StepRunsTheDecodedCommand. -/
theorem test_witness_step :
    (State.reset.withCommand 0x1C#128).inbox = .command 0x1C#128 :: [] ∧
      (State.reset.withCommand 0x1C#128).awaitingReset = false ∧
      decodeTableWord 16 0x1C = some (.construct 7) := by decide

/-- IdleBlockHoldsItsState. -/
theorem test_witness_idle : (order7 0x01#31).inbox = [] := by decide

/-- ResetLeavesNoInstance, ResetDuringACommandAbandonsIt, RunsOutsideTheModelAreRefused: the host's
actions, and `rst` on the ports while a bit is owed. -/
theorem test_witness_host_actions :
    ({ order7 0x01#31 with inbox := [.reset] } : State).inbox = .reset :: [] ∧
      ({ State.reset with inbox := [.resetDuring 0x1#128] } : State).inbox
        = .resetDuring 0x1#128 :: [] ∧
      ({ State.reset with inbox := [.secondHost 0x1#128] } : State).inbox
        = .secondHost 0x1#128 :: [] ∧
      ({ State.reset with inbox := [.powerUp, .reset, .command 0x1#128] } : State).inbox
        = .powerUp :: .reset :: .command 0x1#128 :: [] ∧
      (HostSignals.mk true false 0#128 false false).rst = true ∧
      (PortState.mk (order7 0x01#31) [.bitOut true]).owed ≠ [] := by decide

/-- EveryCommandKeepsTheInvariant, EveryStepKeepsTheMachineGood: a good state with an instance, and a step
from it that answers a next state. -/
theorem test_witness_good :
    ((order7 0x40#31).withCommand 0x1#128).Inv ∧ ((order7 0x40#31).withCommand 0x1#128).Good ∧
      ∃ t, step ((order7 0x40#31).withCommand 0x1#128) = .next t :=
  ⟨by decide, by decide, _, rfl⟩

/-- PortsCarryOutTheTransaction, CommandReadyOnlyAfterTheResponse: an edge that offers GENERATE of 3, from
STATE = 0x40, and the four edges that take its bits 1, 0, 0 and its response; an edge that offers nothing. -/
theorem test_witness_ports :
    (order7 0x40#31).awaitingReset = false ∧
      (HostSignals.mk false true 0x3_00000002#128 false false).rst = false ∧
      (HostSignals.mk false true 0x3_00000002#128 false false).cmdValid = true ∧
      (HostSignals.mk false false 0x3#128 false false).cmdValid = false ∧
      (∃ t, exec (decode 0x3_00000002#128) (order7 0x40#31) = .next t ∧
        (order7 0x40#31).sentSince t
          = [.bitOut true, .bitOut false, .bitOut false, .resp 0x00#8] ∧
        (List.replicate 4 (HostSignals.mk false true 0x3#128 true true)).length
          = ((order7 0x40#31).sentSince t).length) ∧
      ∀ g ∈ List.replicate 4 (HostSignals.mk false true 0x3#128 true true),
        g.rst = false ∧ g.respReady = true ∧ g.bitReady = true :=
  ⟨by decide, by decide, by decide, by decide, ⟨_, rfl, by decide, by decide⟩, by decide⟩

/-- R43, R44: the edge that offers NEXT_BIT to an idle block leaves the response to be taken. -/
theorem test_edge_accepts_nextBit :
    ∃ q, (PortState.idle (order7 0x40#31)).edge (HostSignals.mk false true 0x1#128 false false) = .next q ∧
      q.respOffered = some 0x08#8 ∧ q.bitOffered = none ∧ q.cmdReady = false :=
  ⟨_, rfl, by decide, by decide, by decide⟩

/-- ResetWinsOverATransferAtTheSameEdge, ResetDuringACommandAbandonsIt: `rst` at an edge where the offered
bit could be taken, at one where it could not, and at one that offers a command to an idle block. -/
theorem test_witness_reset_edge :
    (HostSignals.mk true false 0x1#128 true true).rst = true ∧
      (PortState.mk (order7 0x01#31) [.bitOut true]).bitOffered = some true ∧
      (HostSignals.mk true false 0x1#128 false false).bitReady = false ∧
      (HostSignals.mk true false 0x1#128 false false).respReady = false ∧
      (HostSignals.mk true true 0x1#128 true true).cmdValid = true ∧
      (PortState.idle (order7 0x01#31)).cmdReady = true := by decide

/-- BackPressureLosesNothing: a bit and a response word offered, the host ready for neither. -/
theorem test_witness_back_pressure :
    (HostSignals.mk false true 0x3#128 false false).rst = false ∧
      (PortState.mk (order7 0x01#31) [.bitOut true, .resp 0x00#8]).owed ≠ [] ∧
      (PortState.mk (order7 0x01#31) [.bitOut true, .resp 0x00#8]).bitOffered.isSome = true ∧
      (PortState.mk (order7 0x01#31) [.resp 0x00#8]).respOffered.isSome = true := by decide

/-- BlocksDoNotAffectEachOther: a system of two blocks and the other of them. -/
theorem test_witness_blocks :
    (1 : Fin [State.reset, order7 0x01#31].length).val = 1 ∧
      0 ≠ (1 : Fin [State.reset, order7 0x01#31].length).val := by decide

/-- EveryBlockHasItsOwnResetAndPorts: the second of two blocks is reset by its host, or by its own `rst`, or
has an edge of its own beside one of the first block. -/
theorem test_witness_own_reset :
    (∃ t, stepIn [State.reset, { order7 0x01#31 with inbox := [.reset] }] 1 = .next t) ∧
      (∃ t, edgeIn [PortState.idle State.reset, PortState.idle (order7 0x01#31)] 1
        (HostSignals.mk true false 0#128 false false) = .next t) ∧
      (∃ t, edgeIn [PortState.idle State.reset, PortState.idle (order7 0x01#31)] 0
        (HostSignals.mk false true 0x1#128 false false) = .next t) ∧
      (0 : Fin [PortState.idle State.reset, PortState.idle (order7 0x01#31)].length) ≠ 1 :=
  ⟨⟨_, rfl⟩, ⟨_, rfl⟩, ⟨_, rfl⟩, by decide⟩

end Sys2Proof.Tests
end

section
/-! What the commands do to the registers (spec/10_state.md): the facts about one command that the
statements of this family share, runs of commands, and the statements. -/

namespace Sys2Proof.Machine

/-! ### What emitting bits and sending leave unchanged -/

@[simp] theorem emitN_valid (k : Nat) (s : State) : (emitN k s).1.valid = s.valid := by
  rw [emitN_frame]
@[simp] theorem emitN_order (k : Nat) (s : State) : (emitN k s).1.order = s.order := by
  rw [emitN_frame]
@[simp] theorem emitN_t1 (k : Nat) (s : State) : (emitN k s).1.t1 = s.t1 := by
  rw [emitN_frame]
@[simp] theorem emitN_t2 (k : Nat) (s : State) : (emitN k s).1.t2 = s.t2 := by
  rw [emitN_frame]
@[simp] theorem emitN_inbox (k : Nat) (s : State) : (emitN k s).1.inbox = s.inbox := by
  rw [emitN_frame]
@[simp] theorem emitN_sent (k : Nat) (s : State) : (emitN k s).1.sent = s.sent := by
  rw [emitN_frame]
@[simp] theorem emitN_draws (k : Nat) (s : State) : (emitN k s).1.draws = s.draws := by
  rw [emitN_frame]
@[simp] theorem emitN_awaitingReset (k : Nat) (s : State) :
    (emitN k s).1.awaitingReset = s.awaitingReset := by
  rw [emitN_frame]

/-- Sending writes no register. -/
theorem sameRegisters_send (ts : List Transfer) (s : State) : SameRegisters s (s.send ts) :=
  ⟨rfl, rfl, rfl, rfl, rfl, rfl⟩

/-! ### Legal contents of STATE -/

/-- A legal value, bit by bit (R19): not all zero, and no bit set from the order on. -/
theorem legal_iff (o : PrbsOrder) (x : ShiftWord) :
    (rowOf o).Legal x ↔ x ≠ 0#31 ∧ ∀ i, o.degree ≤ i → x.getLsbD i = false := by
  have hpos : 0 < x.toNat ↔ x ≠ 0#31 := by
    rw [Nat.pos_iff_ne_zero, ne_eq, ne_eq, ← BitVec.toNat_inj]; rfl
  have hlt : x.toNat ≤ 2 ^ o.degree - 1 ↔ x.toNat < 2 ^ o.degree :=
    Nat.le_sub_one_iff_lt (Nat.two_pow_pos _)
  have hbits : x.toNat < 2 ^ o.degree ↔ ∀ i, o.degree ≤ i → x.getLsbD i = false :=
    ⟨fun h i hi => by
      rw [← BitVec.testBit_toNat]
      exact Nat.testBit_lt_two_pow (h.trans_le (Nat.pow_le_pow_right two_pos hi)),
    fun h => Nat.lt_pow_two_of_testBit _ fun i hi => by rw [BitVec.testBit_toNat]; exact h i hi⟩
  exact and_congr hpos (hlt.trans hbits)

/-- The mask of an order, the register's contents without a seed, is legal (R67). -/
theorem legal_mask (o : PrbsOrder) : (rowOf o).Legal (mask o.degree) := by
  cases o <;> decide

/-- An accepted construction starts from a legal value (R70). -/
theorem legal_initState {o : PrbsOrder} {seed : Option Seed} (h : check o.degree seed = .ok) :
    (rowOf o).Legal (initState o seed) := by
  obtain ⟨o', ho, rfl | ⟨v, rfl, hpos, hle⟩⟩ := (check_eq_ok_iff _ _).1 h
  · exact legal_mask o
  · obtain ⟨m, rfl⟩ := Int.eq_ofNat_of_zero_le hpos.le
    have hm : m ≤ 2 ^ o.degree - 1 := by
      have : (m : Int) < ((2 ^ o.degree : Nat) : Int) := by push_cast; omega
      omega
    have h31 : 2 ^ o.degree ≤ 2 ^ 31 := Nat.pow_le_pow_right two_pos o.degree_le
    have hval : (initState o (some (.integer m))).toNat = m := by
      have := Nat.two_pow_pos o.degree
      rw [initState, BitVec.ofInt_natCast, BitVec.toNat_ofNat, Nat.mod_eq_of_lt (by omega)]
    exact ⟨by omega, by rw [hval]; exact hm⟩

/-- A step that answers all zeros started from a value with no bit set below the order: each bit but the
top one moves up one place, and the feedback bit gives the top one (R14, R84). -/
theorem getLsbD_eq_false_of_step_eq_zero {o : PrbsOrder} {x : ShiftWord}
    (h : ((rowOf o).step x).1 = 0#31) {i : Nat} (hi : i < o.degree) : x.getLsbD i = false := by
  have hbit (j : Nat) : ((rowOf o).step x).1.getLsbD j = false := by rw [h, BitVec.getLsbD_zero]
  have hlow {j : Nat} (hj : j + 1 < o.degree) : x.getLsbD j = false := by
    simpa [rowOf_step_getLsbD, hj] using hbit (j + 1)
  obtain ⟨ht1, ht2pos, ht2lt⟩ := o.taps_bounds
  have hfeedback : (x.getLsbD (o.taps.1 - 1) ^^ x.getLsbD (o.taps.2 - 1)) = false := by
    have := hbit 0
    rwa [rowOf_step_getLsbD, if_pos rfl, rowOf_step_snd, decide_eq_true o.degree_pos,
      Bool.true_and] at this
  rcases Nat.lt_or_ge (i + 1) o.degree with hi' | hi'
  · exact hlow hi'
  · have htop : i = o.taps.1 - 1 := by omega
    rwa [hlow (j := o.taps.2 - 1) (by omega), Bool.xor_false, ← htop] at hfeedback

/-- A step keeps a register legal (R84). -/
theorem legal_step {o : PrbsOrder} {x : ShiftWord} (h : (rowOf o).Legal x) :
    (rowOf o).Legal ((rowOf o).step x).1 := by
  obtain ⟨hne, hhigh⟩ := (legal_iff o x).1 h
  refine (legal_iff o _).2 ⟨fun hzero => hne ?_, fun i hi => ?_⟩
  · refine BitVec.eq_of_getLsbD_eq fun i _ => ?_
    rw [BitVec.getLsbD_zero]
    rcases Nat.lt_or_ge i o.degree with hi | hi
    · exact getLsbD_eq_false_of_step_eq_zero hzero hi
    · exact hhigh i hi
  · rw [rowOf_step_getLsbD, decide_eq_false (Nat.not_lt.2 hi), Bool.false_and]

/-- So does any number of steps. -/
theorem legal_after {o : PrbsOrder} (k : Nat) {x : ShiftWord} (h : (rowOf o).Legal x) :
    (rowOf o).Legal ((rowOf o).after k x) := by
  induction k generalizing x with
  | zero => exact h
  | succ k ih => exact ih (legal_step h)

/-- Emitting bits keeps an instance of an order. -/
theorem emitN_holds {o : PrbsOrder} {s : State} (h : s.Holds o) (k : Nat) :
    (emitN k s).1.Holds o := by
  obtain ⟨hv, ho, h1, h2, hlegal⟩ := h
  obtain ⟨hstate, -⟩ := emitN_of_row (rowOf o) k s ho h1 h2
  refine ⟨by simp [hv], by simp [ho], by simp [h1], by simp [h2], ?_⟩
  rw [hstate]
  exact legal_after k hlegal

/-! ### What one command does -/

/-- The three things a command can be, whatever the state: one that loads an instance (R68), one that only
fails (R69, R104), or one that emits bits with an instance and fails without one (R80, R81, R91). -/
inductive CommandEffect (i : Instr) : Prop where
  | loads (o : PrbsOrder) (x : ShiftWord) (hlegal : (rowOf o).Legal x)
      (hstarts : startsInstance i = true)
      (hexec : ∀ s, exec i s = .next ((s.load o x).respond .ok))
  | fails (st : Status) (hst : st ≠ .ok) (hstarts : startsInstance i = false)
      (hemits : emits i = false) (hexec : ∀ s, exec i s = .next (s.fail st))
  | emitsBits (reply : List Bool → List Transfer) (hstarts : startsInstance i = false)
      (hemits : emits i = true)
      (hwithout : ∀ s, s.valid = false → exec i s = .next (s.fail .errNotConstructed))
      (hwith : ∀ s, s.valid = true → exec i s =
        .next ((emitN (emittedBy i) s).1.send (reply (emitN (emittedBy i) s).2)))

/-- A command whose meaning is a construction loads an instance or fails, as the checker says. -/
theorem commandEffect_of_construct {i : Instr} {n : Nat} {seed : Option Seed}
    (hexec : ∀ s, exec i s = .next (construct n seed s))
    (hstarts : startsInstance i = decide (check n seed = .ok)) (hemits : emits i = false) :
    CommandEffect i := by
  by_cases h : check n seed = .ok
  · obtain ⟨o, rfl, -⟩ := (check_eq_ok_iff n seed).1 h
    exact .loads o (initState o seed) (legal_initState h) (by simp [hstarts, h])
      fun s => by rw [hexec, construct_of_accepted h]
  · exact .fails (check n seed) h (by simp [hstarts, h]) hemits
      fun s => by rw [hexec, construct_of_refused h]

/-- Every command is one of the three. -/
theorem commandEffect (i : Instr) : CommandEffect i := by
  cases i with
  | construct n => exact commandEffect_of_construct (exec_construct n) rfl rfl
  | constructS n seed => exact commandEffect_of_construct (exec_constructS n seed) rfl rfl
  | nextBit =>
    exact .emitsBits (fun bits => bits.map fun b => .resp (respWord .ok b)) rfl rfl
      (fun _ => exec_nextBit_of_not_valid) (fun _ => exec_nextBit_of_valid)
  | generate count =>
    refine .emitsBits (fun bits => bits.map .bitOut ++ [.resp (respWord .ok false)]) rfl rfl
      (fun _ h => exec_generate_of_not_valid h count) (fun s h => ?_)
    rw [exec_generate_of_valid h]
    simp [State.respond, State.send, emittedBy]
  | reserved => exact .fails .errBadOp (by decide) rfl rfl exec_reserved

/-- Every command keeps the instance invariant (R20). -/
theorem exec_keeps_inv (i : Instr) {s : State} (h : s.Inv) : ∃ t, exec i s = .next t ∧ t.Inv := by
  cases commandEffect i with
  | loads o x hlegal hstarts hexec =>
    exact ⟨_, hexec s, .inr ⟨o, o.mem_all, rfl, rfl, rfl, rfl, hlegal⟩⟩
  | fails st hst hstarts hemits hexec => exact ⟨_, hexec s, h⟩
  | emitsBits reply hstarts hemits hwithout hwith =>
    cases hv : s.valid with
    | false => exact ⟨_, hwithout s hv, .inl hv⟩
    | true =>
      obtain hnot | ⟨o, ho, hholds⟩ := h
      · simp [hv] at hnot
      · exact ⟨_, hwith s hv, .inr ⟨o, ho, emitN_holds hholds (emittedBy i)⟩⟩

/-- From two states that are alike, a command sends the same, after what each had sent, and leaves them
alike: it reads no register without an instance, and never LIFE (R16, R21, R24). -/
theorem exec_of_alike (i : Instr) {s t : State} (h : Alike s t) :
    ∃ s' t' ts, exec i s = .next s' ∧ exec i t = .next t' ∧ s'.sent = s.sent ++ ts ∧
      t'.sent = t.sent ++ ts ∧ Alike s' t' := by
  obtain ⟨hvalid, hregs⟩ := h
  cases commandEffect i with
  | loads o x hlegal hstarts hexec =>
    exact ⟨_, _, _, hexec s, hexec t, rfl, rfl, rfl, fun _ => ⟨rfl, rfl, rfl, rfl⟩⟩
  | fails st hst hstarts hemits hexec =>
    exact ⟨_, _, _, hexec s, hexec t, rfl, rfl, hvalid, hregs⟩
  | emitsBits reply hstarts hemits hwithout hwith =>
    cases hv : s.valid with
    | false =>
      exact ⟨_, _, _, hwithout s hv, hwithout t (hvalid ▸ hv), rfl, rfl, hvalid, hregs⟩
    | true =>
      obtain ⟨ho, h1, h2, hstate⟩ := hregs hv
      obtain ⟨hbits, hstate'⟩ := emitN_bits_congr (emittedBy i) s t ho h1 h2 hstate
      refine ⟨_, _, _, hwith s hv, hwith t (hvalid ▸ hv), by rw [State.send_sent, emitN_sent],
        by rw [State.send_sent, emitN_sent, hbits], ?_⟩
      exact ⟨by simp [hvalid], fun _ => by simp [ho, h1, h2, hstate']⟩

/-! ### Runs of commands -/

/-- What each command of a list keeps, the list keeps. -/
theorem runCommands_keeps {P : State → Prop} {cmds : List Instr}
    (hstep : ∀ i ∈ cmds, ∀ s, P s → ∃ t, exec i s = .next t ∧ P t) {s : State} (hs : P s) :
    ∃ t, runCommands cmds s = .next t ∧ P t := by
  induction cmds generalizing s with
  | nil => exact ⟨s, rfl, hs⟩
  | cons i is ih =>
    obtain ⟨u, hu, hPu⟩ := hstep i (by simp) s hs
    rw [runCommands_cons hu]
    exact ih (fun j hj => hstep j (by simp [hj])) hPu

/-- From two states that are alike, the same commands send the same and leave them alike. -/
theorem runCommands_of_alike (cmds : List Instr) {s t : State} (h : Alike s t) :
    ∃ s' t' ts, runCommands cmds s = .next s' ∧ runCommands cmds t = .next t' ∧
      s'.sent = s.sent ++ ts ∧ t'.sent = t.sent ++ ts ∧ Alike s' t' := by
  induction cmds generalizing s t with
  | nil => exact ⟨s, t, [], rfl, rfl, by simp, by simp, h⟩
  | cons i is ih =>
    obtain ⟨s₁, t₁, ts₁, hexec_s, hexec_t, hsent_s, hsent_t, halike⟩ := exec_of_alike i h
    obtain ⟨s₂, t₂, ts₂, hrun_s, hrun_t, hsent_s', hsent_t', halike'⟩ := ih halike
    refine ⟨s₂, t₂, ts₁ ++ ts₂, ?_, ?_, ?_, ?_, halike'⟩
    · rw [runCommands_cons hexec_s, hrun_s]
    · rw [runCommands_cons hexec_t, hrun_t]
    · rw [hsent_s', hsent_s, List.append_assoc]
    · rw [hsent_t', hsent_t, List.append_assoc]

/-- Two states without an instance are alike, whatever their other registers hold (R24). -/
theorem alike_of_not_valid {s t : State} (hs : s.valid = false) (ht : t.valid = false) :
    Alike s t :=
  ⟨hs.trans ht.symm, fun hv => by simp [hs] at hv⟩

/-! ### The statements -/

/-- Settles O48: being alike is kept by every command, and alike states send the same. -/
theorem unspecifiedRegistersAreUnobservable :
    Obligations.UnspecifiedRegistersAreUnobservable := by
  refine ⟨rfl, rfl, fun s t cmds hs ht => ?_⟩
  obtain ⟨s', t', ts, hrun_s, hrun_t, hsent_s, hsent_t, halike⟩ :=
    runCommands_of_alike cmds (alike_of_not_valid hs ht)
  exact ⟨s', t', hrun_s, hrun_t, by simp [State.sentSince, hsent_s, hsent_t], halike⟩

/-- Settles O42, by what each of the three kinds of command writes. -/
theorem commandsWriteOnlyTheirWriteSets : Obligations.CommandsWriteOnlyTheirWriteSets := by
  refine ⟨fun rest s hinbox => ?_, fun i s => ?_⟩
  · exact ⟨State.applyReset { s with inbox := rest }, by simp [step, takeAction, hinbox, perform],
      rfl, rfl, rfl⟩
  cases commandEffect i with
  | loads o x hlegal hstarts hexec =>
    refine ⟨_, hexec s, ⟨rfl, rfl, rfl⟩, ⟨_, rfl⟩, ?_, ?_, ?_⟩
    · simp [hstarts]
    · simp [hstarts]
    · rintro rfl
      cases hstarts
  | fails st hst hstarts hemits hexec =>
    exact ⟨_, hexec s, ⟨rfl, rfl, rfl⟩, ⟨_, rfl⟩, fun _ => ⟨rfl, rfl, rfl, rfl⟩,
      fun _ _ => sameRegisters_send _ s, fun _ => sameRegisters_send _ s⟩
  | emitsBits reply hstarts hemits hwithout hwith =>
    cases hv : s.valid with
    | false =>
      exact ⟨_, hwithout s hv, ⟨rfl, rfl, rfl⟩, ⟨_, rfl⟩, fun _ => ⟨hv, rfl, rfl, rfl⟩,
        fun _ _ => sameRegisters_send _ s, fun _ => sameRegisters_send _ s⟩
    | true =>
      refine ⟨_, hwith s hv, by simp [SameSurroundings],
        ⟨_, by rw [State.send_sent, emitN_sent]⟩, by simp [hv], by simp [hemits], ?_⟩
      rintro rfl
      exact sameRegisters_send _ s

/-- Settles O43, from what one command keeps: the three registers unless it starts an instance (O42's
write sets), and the instance invariant always. -/
theorem orderAndTapsAreImmutable : Obligations.OrderAndTapsAreImmutable := by
  refine ⟨fun cmds s hcmds => ?_, fun cmds s hs => ?_⟩
  · refine runCommands_keeps (P := fun t => t.order = s.order ∧ t.t1 = s.t1 ∧ t.t2 = s.t2)
      (fun i hi u hu => ?_) ⟨rfl, rfl, rfl⟩
    obtain ⟨t, ht, -, -, hkeeps, -⟩ := commandsWriteOnlyTheirWriteSets.2 i u
    obtain ⟨-, ho, h1, h2⟩ := hkeeps (hcmds i hi)
    exact ⟨t, ht, by rwa [ho, h1, h2]⟩
  · obtain ⟨t, ht, hinv⟩ := runCommands_keeps (P := State.Inv) (cmds := cmds)
      (fun i _ _ => exec_keeps_inv i) (.inl hs)
    refine ⟨t, ht, fun hv => ?_⟩
    obtain hnot | ⟨r, hr, -, ho, h1, h2, -⟩ := (inv_iff t).1 hinv
    · simp [hv] at hnot
    · exact ⟨r, hr, ho, h1, h2⟩

/-- Settles O44. A state is alike to itself with another LIFE, which gives the last part. -/
theorem lifeRecordsTheLifecycle : Obligations.LifeRecordsTheLifecycle := by
  refine ⟨fun i s hi => ?_, fun s hv => ?_, fun count s hv => ?_, fun i s l => ?_⟩
  · cases commandEffect i with
    | loads o x hlegal hstarts hexec => exact ⟨_, hexec s, rfl⟩
    | fails st hst hstarts hemits hexec => simp [hi] at hstarts
    | emitsBits reply hstarts hemits hwithout hwith => simp [hi] at hstarts
  · exact ⟨_, exec_nextBit_of_valid hv, rfl⟩
  · exact ⟨_, exec_generate_of_valid hv count, by simp [emitN_life]⟩
  · have halike : Alike s { s with life := l } := ⟨rfl, fun _ => ⟨rfl, rfl, rfl, rfl⟩⟩
    obtain ⟨t, u, ts, ht, hu, hsent_t, hsent_u, -⟩ := exec_of_alike i halike
    exact ⟨t, u, ht, hu, hsent_u.trans hsent_t.symm⟩

/-- Settles O49: a reset leaves no instance, and every command keeps the invariant. -/
theorem everyCommandKeepsTheInvariant : Obligations.EveryCommandKeepsTheInvariant :=
  ⟨.inl rfl, fun _ => .inl rfl, fun i _ => exec_keeps_inv i⟩

end Sys2Proof.Machine
end

section
/-! The 32-bit interconnect (spec/20_memory.md, R33): the words that carry a command give it back, a stream of
them gives the commands back, and part of a command gives none. -/

namespace Sys2Proof.Machine

/-- The four interconnect words of a command, its least significant 32 bits first (R33). -/
def splitBusWords (w : CmdWord) : List BusWord :=
  [w.extractLsb' 0 32, w.extractLsb' 32 32, w.extractLsb' 64 32, w.extractLsb' 96 32]

/-- The block puts a command together from its four words: adjacent fields join into one. -/
theorem joinBusWords_extractLsb' (w : CmdWord) :
    joinBusWords (w.extractLsb' 0 32) (w.extractLsb' 32 32) (w.extractLsb' 64 32)
      (w.extractLsb' 96 32) = w := by
  rw [joinBusWords]
  calc
    _ = w.extractLsb' 64 64 ++ w.extractLsb' 32 32 ++ w.extractLsb' 0 32 := by
      rw [BitVec.extractLsb'_append_extractLsb'_eq_extractLsb' (by rfl)]
    _ = w.extractLsb' 32 96 ++ w.extractLsb' 0 32 := by
      rw [BitVec.extractLsb'_append_extractLsb'_eq_extractLsb' (by rfl)]
    _ = w.extractLsb' 0 128 := BitVec.extractLsb'_append_extractLsb'_eq_extractLsb' rfl
    _ = w := BitVec.extractLsb'_eq_self

/-- The first command on the interconnect is the one whose four words come first. -/
@[simp] theorem busCommands_splitBusWords_append (w : CmdWord) (rest : List BusWord) :
    busCommands (splitBusWords w ++ rest) = w :: busCommands rest :=
  congrArg (· :: busCommands rest) (joinBusWords_extractLsb' w)

/-- Fewer than four words are no command yet. -/
theorem busCommands_of_length_lt {tail : List BusWord} (h : tail.length < 4) :
    busCommands tail = [] := by
  match tail, h with
  | [], _ | [_], _ | [_, _], _ | [_, _, _], _ => rfl

/-- Fewer than four words do not decode. -/
theorem decodeBus_of_length_lt {tail : List BusWord} (h : tail.length < 4) :
    decodeBus tail = .error .incompleteCommand := by
  match tail, h with
  | [], _ | [_], _ | [_, _], _ | [_, _, _], _ => rfl

/-- A stream of commands' words, and part of one more command, carries exactly those commands. -/
theorem busCommands_flatMap_splitBusWords (ws : List CmdWord) {tail : List BusWord}
    (h : tail.length < 4) : busCommands (ws.flatMap splitBusWords ++ tail) = ws := by
  induction ws with
  | nil => exact busCommands_of_length_lt h
  | cons w ws ih =>
    rw [List.flatMap_cons, List.append_assoc, busCommands_splitBusWords_append, ih]

/-- Settles O6, by induction on the commands sent: each takes its own four words off the stream. -/
theorem fourBusWordsCarryOneCommand : Obligations.FourBusWordsCarryOneCommand := by
  refine ⟨fun ws tail s h => ?_, fun tail h => decodeBus_of_length_lt h⟩
  have hcommands := busCommands_flatMap_splitBusWords ws h
  rw [State.withBusWords_inbox]
  exact congrArg (fun cmds => s.inbox ++ cmds.map HostAction.command) hcommands

end Sys2Proof.Machine
end

section
/-! Command words and responses (spec/30_encoding.md): which bits of a word each operation reads (R51, R54), what
every command sends and how the host reads it (R52), and how the port channels carry it (R44). -/

namespace Sys2Proof.Machine

/-! ### Which command a word is, by the bits it reads -/

/-- OP = 0b00 with SP = 0 reads ORDER (R51, R54). -/
theorem decode_construct {w : CmdWord} (hop : w.extractLsb' 0 2 = 0b00#2)
    (hsp : w.getLsbD 7 = false) : decode w = .construct (w.extractLsb' 2 5).toNat := by
  rw [decode, cmdOp, hop, cmdSp, hsp]
  rfl

/-- OP = 0b00 with SP = 1 and ST = 1 reads ORDER, and not SEED (R51, R54). -/
theorem decode_constructS_nonInteger {w : CmdWord} (hop : w.extractLsb' 0 2 = 0b00#2)
    (hsp : w.getLsbD 7 = true) (hst : w.getLsbD 8 = true) :
    decode w = .constructS (w.extractLsb' 2 5).toNat .nonInteger := by
  rw [decode, cmdOp, hop, cmdSp, hsp, cmdSt, hst]
  rfl

/-- OP = 0b00 with SP = 1 and ST = 0 reads ORDER and SEED (R51, R54). -/
theorem decode_constructS_integer {w : CmdWord} (hop : w.extractLsb' 0 2 = 0b00#2)
    (hsp : w.getLsbD 7 = true) (hst : w.getLsbD 8 = false) :
    decode w = .constructS (w.extractLsb' 2 5).toNat (.integer (w.extractLsb' 64 64).toInt) := by
  rw [decode, cmdOp, hop, cmdSp, hsp, cmdSt, hst, ← sval64_eq_toInt]
  rfl

/-- OP = 0b01 reads nothing more (R51, R54). -/
theorem decode_nextBit {w : CmdWord} (hop : w.extractLsb' 0 2 = 0b01#2) : decode w = .nextBit := by
  rw [decode, cmdOp, hop]
  rfl

/-- OP = 0b10 reads COUNT (R51, R54). -/
theorem decode_generate {w : CmdWord} (hop : w.extractLsb' 0 2 = 0b10#2) :
    decode w = .generate (w.extractLsb' 32 32).toNat := by
  rw [decode, cmdOp, hop]
  rfl

/-- OP = 0b11 reads nothing more (R51, R54). -/
theorem decode_reserved {w : CmdWord} (hop : w.extractLsb' 0 2 = 0b11#2) : decode w = .reserved := by
  rw [decode, cmdOp, hop]
  rfl

/-- Settles O3. For CONSTRUCT by SP and ST, which say what else the word reads. -/
theorem unreadBitsAreIgnored : Obligations.UnreadBitsAreIgnored := by
  refine ⟨fun w w' hop hop' horder hsp hst hseed => ?_, fun w w' hop hop' => ?_,
    fun w w' hop hop' hcount => ?_, fun w w' hop hop' => ?_⟩
  · cases hw : w.getLsbD 7 with
    | false => rw [decode_construct hop hw, decode_construct hop' (hsp ▸ hw), horder]
    | true =>
      have hw' : w'.getLsbD 7 = true := hsp ▸ hw
      cases ht : w.getLsbD 8 with
      | false =>
        rw [decode_constructS_integer hop hw ht, decode_constructS_integer hop' hw' (hst hw ▸ ht),
          horder, hseed hw ht]
      | true =>
        rw [decode_constructS_nonInteger hop hw ht,
          decode_constructS_nonInteger hop' hw' (hst hw ▸ ht), horder]
  · rw [decode_nextBit hop, decode_nextBit hop']
  · rw [decode_generate hop, decode_generate hop', hcount]
  · rw [decode_reserved hop, decode_reserved hop']

/-! ### What a command sends -/

/-- The answers a command may give: the bits it sends before its response word, and that word's STATUS and
BIT (R52). A status with nothing else is OK only for a command that emits no bits. -/
inductive Answer : Instr → List Bool → Status → Bool → Prop where
  | bit (b : Bool) : Answer .nextBit [] .ok b
  | bits (bs : List Bool) : Answer (.generate bs.length) bs .ok false
  | status {i : Instr} {st : Status} (h : st = .ok → emits i = false) : Answer i [] st false

/-- From `s` to `t` the command has sent one of the answers it may give, and nothing else. -/
def Answers (i : Instr) (s t : State) : Prop :=
  ∃ bits st b, t.sent = s.sent ++ bits.map .bitOut ++ [.resp (respWord st b)] ∧ Answer i bits st b

/-- A command that fails answers its status alone (R105). -/
theorem answers_fail (i : Instr) {st : Status} (hst : st ≠ .ok) (s : State) :
    Answers i s (s.fail st) :=
  ⟨[], st, false, by simp, .status fun h => absurd h hst⟩

/-- A construction answers the checker's status alone (R68, R69). -/
theorem answers_construct {i : Instr} (hi : emits i = false) (n : Nat) (seed : Option Seed)
    (s : State) : Answers i s (construct n seed s) := by
  obtain ⟨hrefused, h⟩ | ⟨-, o, -, h⟩ := construct_cases n seed s
  · rw [h]
    exact answers_fail i hrefused s
  · exact ⟨[], .ok, false, by simp [h], .status fun _ => hi⟩

/-- Every command answers a next state, with one of the answers it may give. -/
theorem exec_answers (i : Instr) (s : State) : ∃ t, exec i s = .next t ∧ Answers i s t := by
  cases i with
  | construct n => exact ⟨_, exec_construct n s, answers_construct rfl n none s⟩
  | constructS n seed => exact ⟨_, exec_constructS n seed s, answers_construct rfl n (some seed) s⟩
  | nextBit =>
    cases hv : s.valid with
    | false => exact ⟨_, exec_nextBit_of_not_valid hv, answers_fail _ (by decide) s⟩
    | true => exact ⟨_, exec_nextBit_of_valid hv, [], .ok, (emit s).2, by simp, .bit _⟩
  | generate count =>
    cases hv : s.valid with
    | false => exact ⟨_, exec_generate_of_not_valid hv count, answers_fail _ (by decide) s⟩
    | true =>
      have hanswer := Answer.bits (emitN count s).2
      rw [emitN_length] at hanswer
      exact ⟨_, exec_generate_of_valid hv count, _, .ok, false, by simp, hanswer⟩
  | reserved => exact ⟨_, exec_reserved s, answers_fail _ (by decide) s⟩

/-- Settles O4: the clauses of the dispatch, and the answer that every command gives. -/
theorem everyWordDispatchesToOneOutcome : Obligations.EveryWordDispatchesToOneOutcome := by
  refine ⟨fun w => ⟨decode_construct, decode_constructS_nonInteger, decode_constructS_integer,
    decode_nextBit, decode_generate, decode_reserved⟩, fun w s => ?_⟩
  obtain ⟨t, hexec, -⟩ := exec_answers (decode w) s
  exact ⟨t, hexec⟩

/-! ### How the host reads it -/

/-- The bits of a command's abstract response, given what it sent: BIT for a NEXT_BIT that succeeds, the bits
on `bit_out` for a GENERATE, else none (R52). -/
def responseBits (bits : List Bool) (st : Status) (b : Bool) : Instr → List Bool
  | .nextBit => if st = .ok then [b] else []
  | .generate _ => bits
  | _ => []

/-- The abstract response that bits and then one response word amount to. -/
theorem abstractResponse_answer (i : Instr) (bits : List Bool) (st : Status) (b : Bool) :
    abstractResponse i (bits.map .bitOut ++ [.resp (respWord st b)]) =
      .next ⟨st, responseBits bits st b i⟩ := by
  simp only [abstractResponse, leadingBits_append, decodeResponse_respWord]
  cases i <;> rfl

/-- A transaction as the host sees it, of a command that sends bits and then one response word. -/
theorem transact_of_sent {i : Instr} {s t : State} {bits : List Bool} {st : Status} {b : Bool}
    (hexec : exec i s = .next t)
    (hsent : t.sent = s.sent ++ bits.map .bitOut ++ [.resp (respWord st b)]) :
    transact i s = .next (t, ⟨st, responseBits bits st b i⟩) := by
  have hsince : t.sent.drop s.sent.length = bits.map .bitOut ++ [.resp (respWord st b)] := by
    rw [hsent, List.append_assoc, List.drop_left]
  simp only [transact, hexec, hsince, abstractResponse_answer]

/-- Settles O40, by the answers a command may give. -/
theorem everyCommandGetsOneResponseWord : Obligations.EveryCommandGetsOneResponseWord := by
  intro i s
  obtain ⟨t, hexec, bits, st, b, hsent, hanswer⟩ := exec_answers i s
  have hbit : b = true → i = .nextBit ∧ st = .ok := by
    cases hanswer <;> simp
  have hbits : bits ≠ [] → i = .generate bits.length ∧ st = .ok := by
    cases hanswer <;> simp
  have hcount (count : Nat) : i = .generate count → st = .ok → bits.length = count := by
    cases hanswer with
    | bit b => simp
    | bits bs => simp
    | status h =>
      rintro rfl hst
      cases h hst
  refine ⟨t, bits, respWord st b, ⟨st, responseBits bits st b i⟩, hexec, hsent, ?_⟩
  simp only [respWord_reserved, respWord_status, respWord_bit, status_code_eq_zero_iff]
  refine ⟨trivial, status_code_ne_seven st, hbit, hbits, hcount, transact_of_sent hexec hsent,
    trivial, ?_⟩
  cases i <;> rfl

/-! ### How the ports carry it -/

/-- The block once the host has taken all that is owed to it. -/
def PortState.completed (p : PortState) : State := p.block.send p.owed

/-- With nothing owed the block is idle, and complete. -/
theorem eq_idle_of_owed_nil {p : PortState} (h : p.owed = []) : p = .idle p.completed := by
  obtain ⟨s, owed⟩ := p
  cases h
  simp [PortState.completed, PortState.idle, State.send]

/-- While something is owed, a command is in progress towards the completed state. -/
theorem inProgress_of_owed_ne_nil {p : PortState} (h : p.owed ≠ []) : p.InProgress p.completed :=
  ⟨by simpa [PortState.cmdReady] using h, rfl⟩

/-- No edge without `rst` changes what a command in progress comes to: an item moves or waits (R43). -/
theorem edge_completed {h : HostSignals} (hr : h.rst = false) {p : PortState} (hp : p.owed ≠ []) :
    ∃ q, p.edge h = .next q ∧ q.completed = p.completed := by
  obtain ⟨s, owed⟩ := p
  cases owed with
  | nil => exact absurd rfl hp
  | cons x rest =>
    obtain hmoves | ⟨hwaits, -⟩ := edge_in_progress hr s x rest
    · exact ⟨_, hmoves, by simp [PortState.completed, State.send]⟩
    · exact ⟨_, hwaits, rfl⟩

/-- Accepting a command owes what its meaning sends, and completes in the state of its meaning (R44). -/
theorem accept_completed {w : CmdWord} {s t : State} {ts : List Transfer}
    (hs : s.awaitingReset = false) (hexec : exec (decode w) s = .next t)
    (hsent : t.sent = s.sent ++ ts) :
    ∃ p, (PortState.idle s).accept w = .next p ∧ p.owed = ts ∧ p.completed = t := by
  refine ⟨_, accept_of_next hs hexec, by simp [hsent], ?_⟩
  simp only [PortState.completed, State.send, hsent, List.drop_left]
  rw [← hsent]

/-- Over these edges the command in progress stays so throughout, or ends in `t` at one of them and is in
progress at every edge before. -/
def PortState.Carries (t : State) (p : PortState) (hs : List HostSignals) : Prop :=
  (∃ q, p.edges hs = .next q ∧ q.InProgress t) ∨
  ∃ k, k ≤ hs.length ∧ p.edges (hs.take k) = .next (PortState.idle t) ∧
    ∀ j, j < k → ∃ q, p.edges (hs.take j) = .next q ∧ q.InProgress t

/-- Edges that begin with one that answers a next state go on from it. -/
theorem edges_cons {h : HostSignals} {p q : PortState} (hedge : p.edge h = .next q)
    (hs : List HostSignals) : p.edges (h :: hs) = q.edges hs := by
  simp [PortState.edges, hedge]

/-- One more edge before, at which the command is in progress. -/
theorem carries_cons {t : State} {h : HostSignals} {p q : PortState} {hs : List HostSignals}
    (hp : p.InProgress t) (hedge : p.edge h = .next q) (hq : q.Carries t hs) :
    p.Carries t (h :: hs) := by
  obtain ⟨r, hr, hprogress⟩ | ⟨k, hk, hend, hbefore⟩ := hq
  · exact .inl ⟨r, by rw [edges_cons hedge, hr], hprogress⟩
  · refine .inr ⟨k + 1, Nat.succ_le_succ hk, by rw [List.take_succ_cons, edges_cons hedge, hend],
      fun j hj => ?_⟩
    cases j with
    | zero => exact ⟨p, rfl, hp⟩
    | succ j =>
      rw [List.take_succ_cons, edges_cons hedge]
      exact hbefore j (Nat.lt_of_succ_lt_succ hj)

/-- Whatever the host does short of a reset, the ports carry a command to its completed state (R44). -/
theorem carries_completed (p : PortState) {hs : List HostSignals} (hrst : ∀ g ∈ hs, g.rst = false) :
    p.Carries p.completed hs := by
  induction hs generalizing p with
  | nil =>
    by_cases hp : p.owed = []
    · exact .inr ⟨0, le_rfl, congrArg _ (eq_idle_of_owed_nil hp), by simp⟩
    · exact .inl ⟨p, rfl, inProgress_of_owed_ne_nil hp⟩
  | cons h hs ih =>
    by_cases hp : p.owed = []
    · exact .inr ⟨0, Nat.zero_le _, congrArg _ (eq_idle_of_owed_nil hp), by simp⟩
    · obtain ⟨q, hedge, hq⟩ := edge_completed (hrst h (by simp)) hp
      refine carries_cons (inProgress_of_owed_ne_nil hp) hedge ?_
      rw [← hq]
      exact ih q fun g hg => hrst g (by simp [hg])

/-- A host that takes every item has them all after as many edges as there are items owed. -/
theorem edges_take_owed_of_ready (p : PortState) {hs : List HostSignals}
    (hready : ∀ g ∈ hs, g.rst = false ∧ g.respReady = true ∧ g.bitReady = true)
    (hlen : p.owed.length ≤ hs.length) :
    p.edges (hs.take p.owed.length) = .next (PortState.idle p.completed) := by
  have htaken : (hs.take p.owed.length).length = p.owed.length := List.length_take_of_le hlen
  have hmoved := edges_of_ready (s := p.block) (owed := p.owed)
    (fun g hg => hready g (List.mem_of_mem_take hg)) htaken.le
  rw [htaken, List.take_length, List.drop_length] at hmoved
  exact hmoved

/-- Settles O58: the edge that accepts the command owes what O40 says it sends, and from there on every edge
keeps what the command comes to. -/
theorem commandReadyOnlyAfterTheResponse : Obligations.CommandReadyOnlyAfterTheResponse := by
  intro h s hs hrst hvalid
  obtain ⟨t, bits, rw, -, hexec, hsent, -, -, -, hbits, -⟩ :=
    everyCommandGetsOneResponseWord (decode h.cmd) s
  obtain ⟨p, haccept, howed, rfl⟩ := accept_completed hs hexec (hsent.trans (List.append_assoc ..))
  have hedge : (PortState.idle s).edge h = .next p := by
    rw [edge_of_idle hrst, if_pos hvalid, haccept]
  have hprogress : p.InProgress p.completed := inProgress_of_owed_ne_nil (by simp [howed])
  exact ⟨_, p, bits, rw, hexec, hedge, hprogress, hsent, fun hne => (hbits hne).1,
    fun _ => carries_completed p, p.owed.length,
    fun _ hlen hready => ⟨_, hlen, edges_take_owed_of_ready p hready hlen⟩⟩

/-! ### The worked encodings -/

/-- Settles O1: each row is a closed computation of the assembler, the encoder and the decoder. -/
theorem workedEncodingsDecodeAsWritten : Obligations.WorkedEncodingsDecodeAsWritten := by
  unfold Obligations.WorkedEncodingsDecodeAsWritten
  decide

end Sys2Proof.Machine
end

section
/-! CONSTRUCT and CONSTRUCT.S (spec/40_construct.md): the validity checker and the seeds it accepts (R62, R65, R66,
R74), what a construction does (R63-R69), and that nothing before a construction shows after it (R70, R73, R75). -/

namespace Sys2Proof.Machine

/-! ### The validity checker -/

/-- Every supported degree is an order's (R13). -/
theorem exists_order_of_degree_mem {n : Nat} (h : n ∈ [7, 9, 11, 15, 23, 31]) :
    ∃ o : PrbsOrder, o.degree = n := by
  obtain ⟨o, ho⟩ := Option.ne_none_iff_exists'.1
    fun hnone => (PrbsOrder.ofDegree_eq_none_iff n).1 hnone h
  exact ⟨o, (PrbsOrder.ofDegree_eq_some_iff n o).1 ho⟩

/-- The number of values of an order's register, as the checker's signed comparisons see it. -/
theorem two_pow_degree_bounds (o : PrbsOrder) :
    (1 : Int) < 2 ^ o.degree ∧ (2 : Int) ^ o.degree ≤ 2147483648 :=
  ⟨one_lt_pow₀ (by norm_num) o.degree_pos.ne',
    (pow_le_pow_right₀ (by norm_num) o.degree_le).trans (by norm_num)⟩

theorem check_nonpos (o : PrbsOrder) {v : Int} (h : v ≤ 0) :
    check o.degree (some (.integer v)) = .errSeedNonpos := by
  rw [check_integer, if_pos h]

theorem check_beyond_range (o : PrbsOrder) {v : Int} (h : 2 ^ o.degree - 1 < v) :
    check o.degree (some (.integer v)) = .errSeedRange := by
  obtain ⟨hpos, -⟩ := two_pow_degree_bounds o
  rw [check_integer, if_neg (by omega), if_pos h]

/-- The accepted integer seeds (R66). -/
theorem check_integer_eq_ok_iff (o : PrbsOrder) (v : Int) :
    check o.degree (some (.integer v)) = .ok ↔ 1 ≤ v ∧ v ≤ 2 ^ o.degree - 1 := by
  rw [check_integer]
  split
  · simp; omega
  · split
    · simp; omega
    · simp; omega

/-- Settles O7, by the order that a supported degree names. -/
theorem validityCheckerStatuses : Obligations.ValidityCheckerStatuses := by
  refine ⟨fun n seed hn => check_reserved_order hn seed, fun n hn => ?_⟩
  obtain ⟨o, rfl⟩ := exists_order_of_degree_mem hn
  exact ⟨check_none o, check_nonInteger o, fun v => ⟨check_nonpos o, check_beyond_range o,
    fun hpos hle => (check_integer_eq_ok_iff o v).2 ⟨hpos, hle⟩⟩⟩

/-- The bounds of an order's seeds, its greatest accepted seed given as a number (R74). -/
theorem seed_bounds (o : PrbsOrder) {m : Int} (hm : 2 ^ o.degree - 1 = m) :
    (∀ v : Int, check o.degree (some (.integer v)) = .ok ↔ 1 ≤ v ∧ v ≤ m) ∧
      check o.degree (some (.integer (m + 1))) = .errSeedRange ∧
      check o.degree (some (.integer 0)) = .errSeedNonpos := by
  subst hm
  exact ⟨check_integer_eq_ok_iff o, check_beyond_range o (Int.lt_succ _), check_nonpos o le_rfl⟩

/-- Settles O15: the table's greatest seeds are the six values of 2^n - 1. -/
theorem seedBoundsOfEachOrder : Obligations.SeedBoundsOfEachOrder := by
  intro e he
  simp only [List.mem_cons, List.not_mem_nil, or_false] at he
  obtain rfl | rfl | rfl | rfl | rfl | rfl := he
  · exact seed_bounds .prbs7 (by decide)
  · exact seed_bounds .prbs9 (by decide)
  · exact seed_bounds .prbs11 (by decide)
  · exact seed_bounds .prbs15 (by decide)
  · exact seed_bounds .prbs23 (by decide)
  · exact seed_bounds .prbs31 (by decide)

/-- Everything the bridge can make of an integer (R49). -/
theorem bridgeSeed_cases (v : Int) :
    (9223372036854775807 < v ∧ bridgeSeed (.integer v) = .integer 9223372036854775807) ∨
    (v < -9223372036854775808 ∧ bridgeSeed (.integer v) = .integer (-9223372036854775808)) ∨
    ((Seed.integer v).wellFormed = true ∧ bridgeSeed (.integer v) = .integer v) := by
  simp only [bridgeSeed, Seed.wellFormed]
  split
  · exact .inl ⟨‹_›, rfl⟩
  · split
    · exact .inr (.inl ⟨‹_›, rfl⟩)
    · exact .inr (.inr ⟨by simp; omega, rfl⟩)

/-- What the bridge makes of an integer fits SEED (R48, R49). -/
theorem bridgeSeed_wellFormed (v : Int) : (bridgeSeed (.integer v)).wellFormed = true := by
  obtain ⟨-, h⟩ | ⟨-, h⟩ | ⟨hfits, h⟩ := bridgeSeed_cases v
  · rw [h]; decide
  · rw [h]; decide
  · rw [h]; exact hfits

/-- A saturated seed lies beyond every order's range, on the side of the seed it stands for (R66). -/
theorem check_bridgeSeed (o : PrbsOrder) (v : Int) :
    check o.degree (some (bridgeSeed (.integer v))) = check o.degree (some (.integer v)) := by
  obtain ⟨-, hle⟩ := two_pow_degree_bounds o
  obtain ⟨hv, h⟩ | ⟨hv, h⟩ | ⟨-, h⟩ := bridgeSeed_cases v
  · rw [h, check_beyond_range o (by omega), check_beyond_range o (by omega)]
  · rw [h, check_nonpos o (by omega), check_nonpos o (by omega)]
  · rw [h]

/-- Settles O14. An order outside the six has one status, saturated or not. -/
theorem saturatingBridgeKeepsTheStatus : Obligations.SaturatingBridgeKeepsTheStatus := by
  refine ⟨fun r hr v => ?_, fun n v => ⟨bridgeSeed_wellFormed v, ?_⟩⟩
  · obtain ⟨o, rfl⟩ := exists_order_of_mem hr
    obtain ⟨hpos, -⟩ := two_pow_degree_bounds o
    exact ⟨fun ⟨hnonpos, hbeyond⟩ => absurd (hbeyond.trans_le hnonpos) (by simp only [rowOf]; omega),
      check_integer_eq_ok_iff o v⟩
  · by_cases hn : n ∈ [7, 9, 11, 15, 23, 31]
    · obtain ⟨o, rfl⟩ := exists_order_of_degree_mem hn
      exact check_bridgeSeed o v
    · rw [check_reserved_order hn, check_reserved_order hn]

/-! ### What a construction does -/

@[simp] theorem exec_constructCommand (n : Nat) (seed : Option Seed) (s : State) :
    exec (constructCommand n seed) s = .next (construct n seed s) := by
  cases seed <;> rfl

/-- OP = 0b00 is a construction of the order that ORDER names, whatever its other bits hold (R54, R63). -/
theorem decode_eq_constructCommand {w : CmdWord} (hop : w.extractLsb' 0 2 = 0b00#2) :
    ∃ seed, decode w = constructCommand (w.extractLsb' 2 5).toNat seed := by
  cases hsp : w.getLsbD 7 with
  | false => exact ⟨none, decode_construct hop hsp⟩
  | true =>
    cases hst : w.getLsbD 8 with
    | false => exact ⟨some _, decode_constructS_integer hop hsp hst⟩
    | true => exact ⟨some _, decode_constructS_nonInteger hop hsp hst⟩

/-- An accepted construction starts an instance of the order's row (R67, R68). -/
theorem construct_eq_started {o : PrbsOrder} {seed : Option Seed} (h : check o.degree seed = .ok)
    (s : State) : construct o.degree seed s = (rowOf o).started (initState o seed) s := by
  rw [construct_of_accepted h]
  rfl

/-- A refused construction sends its code's response word and does nothing else (R69). -/
theorem construct_eq_of_refused {n : Nat} {seed : Option Seed} {st : Status} (h : check n seed = st)
    (hst : st ≠ .ok) (s : State) :
    construct n seed s = { s with sent := s.sent ++ [.resp (respWord st false)] } := by
  subst h
  exact construct_of_refused hst s

/-- Settles O8, by the checker's answer to a reserved order. -/
theorem reservedOrderFails : Obligations.ReservedOrderFails := by
  intro w s hop hreserved
  obtain ⟨seed, hdecode⟩ := decode_eq_constructCommand hop
  rw [hdecode, exec_constructCommand,
    construct_eq_of_refused (check_reserved_order hreserved seed) (by decide)]
  rfl

/-- The ORDER field of a row's order, read as a number. -/
theorem toNat_of_eq_ofNat_degree {x : BitVec 5} {o : PrbsOrder} (h : x = BitVec.ofNat 5 o.degree) :
    x.toNat = o.degree :=
  h ▸ o.field_toNat

/-- Settles O9: without a seed the checker accepts every order of the table. -/
theorem noSeedStartsFromAllOnes : Obligations.NoSeedStartsFromAllOnes := by
  intro r hr w s hop horder hsp
  obtain ⟨o, rfl⟩ := exists_order_of_mem hr
  rw [decode_construct hop hsp, toNat_of_eq_ofNat_degree horder, exec_construct,
    construct_eq_started (check_none o)]
  rfl

/-- The seed that a register of 31 bits takes from SEED is the field's low bits (R67). -/
theorem initState_seedField (o : PrbsOrder) (w : CmdWord) :
    initState o (some (.integer (w.extractLsb' 64 64).toInt)) = w.extractLsb' 64 31 := by
  have hlow : (w.extractLsb' 64 64).signExtend 31 = (w.extractLsb' 64 64).setWidth 31 :=
    BitVec.signExtend_eq_setWidth_of_le _ (by decide)
  refine hlow.trans (BitVec.eq_of_getLsbD_eq fun i hi => ?_)
  simp [hi]
  omega

/-- Settles O10, by the checker's answer in each of the four cases. -/
theorem givenSeedIsCheckedThenLoaded : Obligations.GivenSeedIsCheckedThenLoaded := by
  intro r hr w s hop horder hsp
  obtain ⟨o, rfl⟩ := exists_order_of_mem hr
  have hn := toNat_of_eq_ofNat_degree horder
  have hinteger (hst : w.getLsbD 8 = false) : exec (decode w) s =
      .next (construct o.degree (some (.integer (w.extractLsb' 64 64).toInt)) s) := by
    rw [decode_constructS_integer hop hsp hst, hn, exec_constructS]
  refine ⟨fun hst => ?_, fun hst hnonpos => ?_, fun hst hbeyond => ?_, fun hst hpos hle => ?_⟩
  · rw [decode_constructS_nonInteger hop hsp hst, hn, exec_constructS,
      construct_eq_of_refused (check_nonInteger o) (by decide)]
    rfl
  · rw [hinteger hst, construct_eq_of_refused (check_nonpos o hnonpos) (by decide)]
    rfl
  · rw [hinteger hst, construct_eq_of_refused (check_beyond_range o hbeyond) (by decide)]
    rfl
  · rw [hinteger hst, construct_eq_started ((check_integer_eq_ok_iff o _).2 ⟨hpos, hle⟩),
      initState_seedField]

/-- Settles O11. The accepted seed is the register's new value itself: it fits 31 bits (R67). -/
theorem acceptedConstructionLoadsEveryRegister :
    Obligations.AcceptedConstructionLoadsEveryRegister := by
  refine fun n s => ⟨fun h => ?_, fun seed h => ?_⟩
  · obtain ⟨o, rfl, -⟩ := (check_eq_ok_iff _ _).1 h
    exact ⟨rowOf o, rowOf_mem o, rfl, congrArg _ (construct_eq_started h s)⟩
  · obtain ⟨o, rfl, hnone | ⟨v, hseed, hpos, hle⟩⟩ := (check_eq_ok_iff _ _).1 h
    · cases hnone
    · cases hseed
      obtain ⟨m, rfl⟩ := Int.eq_ofNat_of_zero_le hpos.le
      have hlt : m < 2 ^ o.degree := by zify; omega
      have hfits : m < 2 ^ 31 := hlt.trans_le (Nat.pow_le_pow_right two_pos o.degree_le)
      have hinit : initState o (some (.integer m)) = BitVec.ofNat 31 m := BitVec.ofInt_natCast 31 m
      refine ⟨rowOf o, rowOf_mem o, rfl, m, rfl, by omega, hlt, ?_, ?_⟩
      · rw [exec_constructS, construct_eq_started h, hinit]
      · rw [BitVec.toNat_ofNat, Nat.mod_eq_of_lt hfits]

/-! ### What shows after a construction -/

/-- A command that starts an instance starts the same one, legal, from every state (R68, R70). -/
theorem exec_of_startsInstance {i : Instr} (h : startsInstance i = true) :
    ∃ (o : PrbsOrder) (x : ShiftWord), (rowOf o).Legal x ∧
      ∀ s, exec i s = .next ((rowOf o).started x s) := by
  cases commandEffect i with
  | loads o x hlegal hstarts hexec => exact ⟨o, x, hlegal, hexec⟩
  | fails st hst hstarts hemits hexec => simp [h] at hstarts
  | emitsBits reply hstarts hemits hwithout hwith => simp [h] at hstarts

/-- Settles O13. -/
theorem acceptedConstructionEstablishesInvariant :
    Obligations.AcceptedConstructionEstablishesInvariant := by
  intro i s h
  obtain ⟨o, x, hlegal, hexec⟩ := exec_of_startsInstance h
  exact ⟨_, hexec s, rowOf o, rowOf_mem o, rfl, rfl, rfl, rfl, hlegal⟩

/-- A command reads the six registers alone: from the same registers it sends the same and leaves the same
registers, the ones that are unspecified without an instance and LIFE among them (R73). -/
theorem exec_of_sameRegisters (i : Instr) {s t : State} (h : SameRegisters s t) :
    ∃ s' t' ts, exec i s = .next s' ∧ exec i t = .next t' ∧ s'.sent = s.sent ++ ts ∧
      t'.sent = t.sent ++ ts ∧ SameRegisters s' t' := by
  cases commandEffect i with
  | loads o x hlegal hstarts hexec =>
    exact ⟨_, _, _, hexec s, hexec t, rfl, rfl, rfl, rfl, rfl, rfl, rfl, rfl⟩
  | fails st hst hstarts hemits hexec => exact ⟨_, _, _, hexec s, hexec t, rfl, rfl, h⟩
  | emitsBits reply hstarts hemits hwithout hwith =>
    obtain ⟨hvalid, ho, h1, h2, hstate, hlife⟩ := h
    cases hv : s.valid with
    | false =>
      exact ⟨_, _, _, hwithout s hv, hwithout t (hvalid.trans hv), rfl, rfl, hvalid, ho, h1, h2,
        hstate, hlife⟩
    | true =>
      obtain ⟨hbits, hstate'⟩ := emitN_bits_congr (emittedBy i) t s ho h1 h2 hstate
      refine ⟨_, _, _, hwith s hv, hwith t (hvalid.trans hv), by rw [State.send_sent, emitN_sent],
        by rw [State.send_sent, emitN_sent, hbits], ?_⟩
      simp [SameRegisters, hvalid, ho, h1, h2, hstate', emitN_life, hlife]

/-- What every command keeps between two states while it sends the same from both, a list of commands keeps
while it sends the same. -/
theorem runCommands_of_related {R : State → State → Prop}
    (hstep : ∀ (i : Instr) (s t : State), R s t → ∃ s' t' ts, exec i s = .next s' ∧
      exec i t = .next t' ∧ s'.sent = s.sent ++ ts ∧ t'.sent = t.sent ++ ts ∧ R s' t')
    (cmds : List Instr) {s t : State} (h : R s t) :
    ∃ s' t' ts, runCommands cmds s = .next s' ∧ runCommands cmds t = .next t' ∧
      s'.sent = s.sent ++ ts ∧ t'.sent = t.sent ++ ts ∧ R s' t' := by
  induction cmds generalizing s t with
  | nil => exact ⟨s, t, [], rfl, rfl, by simp, by simp, h⟩
  | cons i is ih =>
    obtain ⟨s₁, t₁, ts₁, hexec_s, hexec_t, hsent_s, hsent_t, hrel⟩ := hstep i s t h
    obtain ⟨s₂, t₂, ts₂, hrun_s, hrun_t, hsent_s', hsent_t', hrel'⟩ := ih hrel
    exact ⟨s₂, t₂, ts₁ ++ ts₂, (runCommands_cons hexec_s is).trans hrun_s,
      (runCommands_cons hexec_t is).trans hrun_t, by simp [hsent_s', hsent_s],
      by simp [hsent_t', hsent_t], hrel'⟩

/-- Settles O17: the construction makes the registers the same, and the later commands keep them so. -/
theorem sequenceDependsOnlyOnConstruction : Obligations.SequenceDependsOnlyOnConstruction := by
  intro i later s1 s2 h
  obtain ⟨o, x, -, hexec⟩ := exec_of_startsInstance h
  have hloaded : SameRegisters ((rowOf o).started x s1) ((rowOf o).started x s2) :=
    ⟨rfl, rfl, rfl, rfl, rfl, rfl⟩
  obtain ⟨t1, t2, ts, hrun1, hrun2, hsent1, hsent2, hsame⟩ :=
    runCommands_of_related (R := SameRegisters) (fun i _ _ => exec_of_sameRegisters i) later hloaded
  refine ⟨t1, t2, (runCommands_cons (hexec s1) later).trans hrun1,
    (runCommands_cons (hexec s2) later).trans hrun2, hsame, ?_⟩
  simp [State.sentSince, hsent1, hsent2, TapRow.started]

/-- NEXT_BIT sends its response word alone, with an instance or without (R80, R81). -/
theorem exec_nextBit_sends (s : State) :
    ∃ t x, exec .nextBit s = .next t ∧ t.sent = s.sent ++ [x] := by
  cases hv : s.valid with
  | false => exact ⟨_, _, exec_nextBit_of_not_valid hv, rfl⟩
  | true => exact ⟨_, _, exec_nextBit_of_valid hv, rfl⟩

/-- Settles O12: the refused construction leaves the registers the same, and NEXT_BIT reads nothing else. -/
theorem refusedConstructionWritesNothing : Obligations.RefusedConstructionWritesNothing := by
  intro n seed s h
  have hrefused : exec (constructCommand n seed) s = .next (s.fail (check n seed)) := by
    rw [exec_constructCommand, construct_of_refused h]
  obtain ⟨a, b, ts, hexec_a, hexec_b, hsent_a, hsent_b, hsame⟩ :=
    exec_of_sameRegisters .nextBit (s := s.fail (check n seed)) (t := s) ⟨rfl, rfl, rfl, rfl, rfl, rfl⟩
  obtain ⟨b', x, hexec_b', hsent_b'⟩ := exec_nextBit_sends s
  obtain rfl : b' = b := by simpa [hexec_b'] using hexec_b
  obtain rfl : ts = [x] := by simpa [hsent_b'] using hsent_b.symm
  refine ⟨hrefused, a, b', x, ?_, hexec_b, hsame, hsent_b, by simpa using hsent_a⟩
  rw [runCommands_cons hrefused, runCommands_cons hexec_a]
  rfl

/-- The seed 2^n - 1 is the all-ones state (R75). -/
theorem initState_greatestSeed (o : PrbsOrder) :
    initState o (some (.integer (2 ^ o.degree - 1))) = initState o none := by
  cases o <;> decide

/-- Settles O16: both constructions start the same instance. -/
theorem defaultSeedIsTheAllOnesSeed : Obligations.DefaultSeedIsTheAllOnesSeed := by
  intro r hr s later
  obtain ⟨o, rfl⟩ := exists_order_of_mem hr
  have haccepted : check o.degree (some (.integer (2 ^ o.degree - 1))) = .ok := by
    obtain ⟨hpos, -⟩ := two_pow_degree_bounds o
    exact (check_integer_eq_ok_iff o _).2 ⟨by omega, le_rfl⟩
  have hseed : exec (.constructS o.degree (.integer (2 ^ o.degree - 1))) s =
      .next ((rowOf o).started (initState o none) s) := by
    rw [exec_constructS, construct_eq_started haccepted, initState_greatestSeed]
  have hdefault : exec (.construct o.degree) s =
      .next ((rowOf o).started (initState o none) s) := by
    rw [exec_construct, construct_eq_started (check_none o)]
  exact ⟨hseed.trans hdefault.symm, by rw [rowOf, runCommands_cons hseed, runCommands_cons hdefault]⟩

end Sys2Proof.Machine
end

section
/-! NEXT_BIT (spec/41_next_bit.md): one step of the register bit by bit (R79, R83, R84), the emitted bits as a
recurrence (R87), and the command (R80-R82, R90). -/

namespace Sys2Proof.Machine

@[simp] theorem rowOf_n (o : PrbsOrder) : (rowOf o).n = o.degree := rfl
@[simp] theorem rowOf_t1 (o : PrbsOrder) : (rowOf o).t1 = o.taps.1 := rfl
@[simp] theorem rowOf_t2 (o : PrbsOrder) : (rowOf o).t2 = o.taps.2 := rfl

/-! ### The step, bit by bit -/

/-- Bit 0 of the new state is the emitted bit (R79). -/
theorem step_getLsbD_zero (o : PrbsOrder) (x : ShiftWord) :
    ((rowOf o).step x).1.getLsbD 0 = ((rowOf o).step x).2 := by
  rw [rowOf_step_getLsbD, if_pos rfl, decide_eq_true o.degree_pos, Bool.true_and]

/-- Every other bit below the order is the old bit below it (R79). -/
theorem step_getLsbD_succ {o : PrbsOrder} {i : Nat} (hi : i + 1 < o.degree) (x : ShiftWord) :
    ((rowOf o).step x).1.getLsbD (i + 1) = x.getLsbD i := by
  simp [rowOf_step_getLsbD, hi]

/-- No bit from the order up is set (R83). -/
theorem step_getLsbD_of_degree_le {o : PrbsOrder} {i : Nat} (hi : o.degree ≤ i) (x : ShiftWord) :
    ((rowOf o).step x).1.getLsbD i = false := by
  simp [rowOf_step_getLsbD, Nat.not_lt.2 hi]

/-- A step leaves the register within the order's width, whatever it held (R83). -/
theorem step_toNat_lt (o : PrbsOrder) (x : ShiftWord) :
    ((rowOf o).step x).1.toNat < 2 ^ o.degree :=
  Nat.lt_pow_two_of_testBit _ fun _ hi => step_getLsbD_of_degree_le hi x

/-- The step of a register that holds zero (R83). -/
theorem step_zero (o : PrbsOrder) : (rowOf o).step 0#31 = (0#31, false) := by
  cases o <;> decide

/-- Settles O19. -/
theorem stepShiftsInTheFeedbackBit : Obligations.StepShiftsInTheFeedbackBit := by
  intro r hr x
  obtain ⟨o, rfl⟩ := exists_order_of_mem hr
  refine ⟨rowOf_step_snd o x, step_getLsbD_zero o x, fun i hpos hi => ?_,
    fun j hj _ => step_getLsbD_of_degree_le hj x⟩
  obtain ⟨i, rfl⟩ := Nat.exists_eq_add_one.2 hpos
  exact step_getLsbD_succ (Nat.add_lt_of_lt_sub hi) x

/-- Settles O22. The step's mask cuts the register off at the order, whatever it held. -/
theorem stepKeepsTheWidth : Obligations.StepKeepsTheWidth := by
  intro r hr
  obtain ⟨o, rfl⟩ := exists_order_of_mem hr
  exact ⟨fun x _ => ⟨step_toNat_lt o x, fun j hj => step_getLsbD_of_degree_le hj x⟩, step_zero o⟩

/-- A command that emits bits keeps the instance it emits them from. -/
theorem exec_keeps_holds {i : Instr} (hi : emits i = true) {o : PrbsOrder} {s : State}
    (h : s.Holds o) : ∃ t, exec i s = .next t ∧ t.Holds o := by
  cases commandEffect i with
  | loads o' x hlegal hstarts hexec => cases i <;> simp [emits, startsInstance] at hi hstarts
  | fails st hst hstarts hemits hexec => simp [hi] at hemits
  | emitsBits reply hstarts hemits hwithout hwith =>
    exact ⟨_, hwith s h.1, emitN_holds h (emittedBy i)⟩

/-- A legal value is not all zeros (R19). -/
theorem ne_zero_of_legal {o : PrbsOrder} {x : ShiftWord} (h : (rowOf o).Legal x) : x ≠ 0#31 :=
  ((legal_iff o x).1 h).1

/-- Settles O23: steps keep the register legal, and a run of emitting commands keeps the instance. -/
theorem stateIsNeverAllZero : Obligations.StateIsNeverAllZero := by
  intro r hr
  obtain ⟨o, rfl⟩ := exists_order_of_mem hr
  refine ⟨fun x hpos hlt => ne_zero_of_legal (legal_step ⟨hpos, Nat.le_sub_one_of_lt hlt⟩),
    fun s cmds hs hcmds => ?_⟩
  obtain ⟨t, hrun, -, -, -, -, hlegal⟩ := runCommands_keeps (P := State.Holds o)
    (fun i hi _ => exec_keeps_holds (hcmds i hi)) hs
  exact ⟨t, hrun, ne_zero_of_legal hlegal⟩

/-! ### Bits as they move through the register -/

/-- A bit of the register has moved up `k` places after `k` steps (R87). -/
theorem after_getLsbD_add {o : PrbsOrder} {i k : Nat} (h : i + k < o.degree) (x : ShiftWord) :
    ((rowOf o).after k x).getLsbD (i + k) = x.getLsbD i := by
  induction k with
  | zero => rfl
  | succ k ih => rw [after_succ', ← Nat.add_assoc, step_getLsbD_succ (by omega), ih (by omega)]

/-- The bit emitted by step `k` is in bit `i` of the register `i + 1` steps later (R87). -/
theorem after_getLsbD_eq_bitAt {o : PrbsOrder} {i : Nat} (hi : i < o.degree) (k : Nat)
    (x : ShiftWord) : ((rowOf o).after (k + 1 + i) x).getLsbD i = (rowOf o).bitAt k x := by
  have hmoved := after_getLsbD_add (o := o) (i := 0) (k := i) (by omega) ((rowOf o).after (k + 1) x)
  rw [Nat.zero_add, ← after_add, Nat.add_comm i] at hmoved
  rw [hmoved, after_succ', step_getLsbD_zero, TapRow.bitAt]

/-- The bits emitted after the first `j` are those emitted from where the register is then. -/
theorem bitAt_add (r : TapRow) (k j : Nat) (x : ShiftWord) :
    r.bitAt (k + j) x = r.bitAt k (r.after j x) := by
  rw [TapRow.bitAt, TapRow.bitAt, after_add]

/-- As many emitted bits as the order's degree fill the register, so they determine it (R87). -/
theorem after_degree_eq_of_bitAt_eq {o : PrbsOrder} {x y : ShiftWord}
    (hx : (rowOf o).Legal x) (hy : (rowOf o).Legal y)
    (h : ∀ k, (rowOf o).bitAt k x = (rowOf o).bitAt k y) :
    (rowOf o).after o.degree x = (rowOf o).after o.degree y := by
  refine BitVec.eq_of_getLsbD_eq fun i _ => ?_
  rcases Nat.lt_or_ge i o.degree with hi | hi
  · have hk : o.degree = o.degree - 1 - i + 1 + i := by omega
    rw [hk, after_getLsbD_eq_bitAt hi, after_getLsbD_eq_bitAt hi, h]
  · rw [((legal_iff o _).1 (legal_after _ hx)).2 i hi, ((legal_iff o _).1 (legal_after _ hy)).2 i hi]

/-- The register holds the last bits of the sequence that the seed's bits lead, the most recent one in bit 0
(R87). -/
theorem after_getLsbD_eq_of_sequence {o : PrbsOrder} {x : ShiftWord} {a : Int → Bool}
    (hbits : ∀ k : Nat, a k = (rowOf o).bitAt k x)
    (hseed : ∀ p : Nat, 1 ≤ p → p ≤ o.degree → a (-(p : Int)) = x.getLsbD (p - 1))
    (k : Nat) {i : Nat} (hi : i < o.degree) :
    ((rowOf o).after k x).getLsbD i = a ((k : Int) - (i + 1)) := by
  rcases Nat.lt_or_ge i k with hlt | hge
  · obtain ⟨j, rfl⟩ := Nat.exists_eq_add_of_lt hlt
    rw [show i + j + 1 = j + 1 + i by omega, after_getLsbD_eq_bitAt hi, ← hbits]
    congr 1
    omega
  · obtain ⟨j, rfl⟩ := Nat.exists_eq_add_of_le' hge
    rw [after_getLsbD_add hi, ← Nat.add_sub_cancel j 1, ← hseed (j + 1) (by omega) (by omega)]
    congr 1
    omega

/-- Settles O26: the bits that a step taps are among those that the register holds. -/
theorem emittedBitsFollowTheRecurrence : Obligations.EmittedBitsFollowTheRecurrence := by
  intro r hr x a hbits hseed
  obtain ⟨o, rfl⟩ := exists_order_of_mem hr
  have hregister := @after_getLsbD_eq_of_sequence o x a hbits hseed
  obtain ⟨ht1, ht2pos, ht2lt⟩ := o.taps_bounds
  have hdegree := o.degree_pos
  have hindex {t : Nat} (ht : 1 ≤ t) : ((t - 1 : Nat) : Int) + 1 = t := by omega
  refine ⟨fun k => ?_, fun k i hi => ?_⟩
  · rw [hbits, TapRow.bitAt, rowOf_step_snd, rowOf_t1, rowOf_t2, hregister k (by omega),
      hregister k (by omega), hindex (by omega), hindex ht2pos]
  · rw [hregister (k + 1) (by rw [rowOf_n] at hi; omega)]
    congr 1
    push_cast
    ring

/-! ### The command -/

/-- Without an instance NEXT_BIT sends the word 0x05 alone (R80). -/
theorem exec_nextBit_eq_of_not_valid {s : State} (hs : s.valid = false) :
    exec .nextBit s = .next { s with sent := s.sent ++ [.resp 0x05#8] } :=
  exec_nextBit_of_not_valid hs

/-- Settles O20. -/
theorem nextBitWithoutInstanceFails : Obligations.NextBitWithoutInstanceFails := by
  intro w s hop hs
  rw [decode_nextBit hop, exec_nextBit_eq_of_not_valid hs]

/-- The response word of a NEXT_BIT that succeeds (R52, R81). -/
theorem respWord_ok (b : Bool) : respWord .ok b = if b then 0x08#8 else 0x00#8 := by
  cases b <;> rfl

/-- With an instance NEXT_BIT takes one step and answers the bit it emits (R81). -/
theorem exec_nextBit_eq_of_valid {s : State} (hs : s.valid = true) :
    exec .nextBit s = .next { s with
      state := (lfsrStep s.order s.t1 s.t2 s.state).1
      life := .running
      sent := s.sent ++
        [.resp (if (lfsrStep s.order s.t1 s.t2 s.state).2 then 0x08#8 else 0x00#8)] } := by
  rw [exec_nextBit_of_valid hs, respWord_ok]
  rfl

/-- The step from all ones emits 0, and from the top bit alone it emits 1 and leaves 1 (R81). -/
theorem step_corner_cases (o : PrbsOrder) :
    ((rowOf o).step (BitVec.ofNat 31 (2 ^ o.degree - 1))).2 = false ∧
      (rowOf o).step (BitVec.ofNat 31 (2 ^ (o.degree - 1))) = (1#31, true) := by
  cases o <;> decide

/-- What the tap registers of an order hold, read as numbers (R18). -/
theorem taps_toNat (o : PrbsOrder) : o.t1.toNat = o.taps.1 ∧ o.t2.toNat = o.taps.2 := by
  cases o <;> decide

/-- The tap indices of an instance are below ORDER (R82). -/
theorem tap_indices_of_holds {o : PrbsOrder} {s : State} (h : s.Holds o) :
    1 ≤ s.t1.toNat ∧ s.t1.toNat - 1 < s.order.toNat ∧
      1 ≤ s.t2.toNat ∧ s.t2.toNat - 1 < s.order.toNat := by
  obtain ⟨-, horder, ht1, ht2, -⟩ := h
  obtain ⟨h1, h2⟩ := taps_toNat o
  obtain ⟨htop, hpos, hlt⟩ := o.taps_bounds
  have hdegree := o.degree_pos
  rw [horder, ht1, ht2, h1, h2, o.field_toNat]
  omega

/-- Settles O21. -/
theorem nextBitEmitsTheFeedbackBit : Obligations.NextBitEmitsTheFeedbackBit := by
  refine ⟨fun w => decode_nextBit, fun s => exec_nextBit_eq_of_valid,
    fun s => exec_nextBit_eq_of_not_valid, fun r hr => ?_, by decide, ⟨_, rfl, by decide, by decide⟩,
    fun r hr s hs => ?_⟩
  · obtain ⟨o, rfl⟩ := exists_order_of_mem hr
    exact step_corner_cases o
  · obtain ⟨o, rfl⟩ := exists_order_of_mem hr
    exact tap_indices_of_holds hs

/-- Settles O28: a closed run of the model. -/
theorem goldenVectorOfPrbs7 : Obligations.GoldenVectorOfPrbs7 :=
  ⟨_, rfl, by decide, by decide, by decide⟩

end Sys2Proof.Machine
end

section
/-! The cycle of the register's legal values (spec/41_next_bit.md): its length, computed by squaring the step's table
(R86), the step as a permutation (R85), and the ones and zeros of one period (R88). -/

namespace Sys2Proof.Machine

/-! ### Many steps, computed -/

/-- A table used `k` times over, `k` given by its `b` low bits: the table is squared once for each. -/
def iterateTable : Nat → List ShiftWord → Nat → ShiftWord → ShiftWord
  | 0, _, _, x => x
  | b + 1, M, k, x =>
    iterateTable b (thenTable M M) (k / 2) (if k % 2 = 1 then applyTable M x else x)

theorem iterateTable_eq_iterate (b : Nat) (M : List ShiftWord) {k : Nat} (hk : k < 2 ^ b)
    (x : ShiftWord) : iterateTable b M k x = (applyTable M)^[k] x := by
  induction b generalizing M k x with
  | zero =>
    obtain rfl : k = 0 := by simpa using hk
    rfl
  | succ b ih =>
    have hsquare : applyTable (thenTable M M) = (applyTable M)^[2] :=
      funext (applyTable_thenTable M M)
    rw [iterateTable, ih _ (by omega), hsquare, ← Function.iterate_mul]
    split
    · rw [← Function.iterate_succ_apply, show (2 * (k / 2)).succ = k by omega]
    · rw [show 2 * (k / 2) = k by omega]

/-- The table of an order's step. -/
def stepTable (o : PrbsOrder) : List ShiftWord := tableOf o.next o.degree

theorem applyTable_stepTable {o : PrbsOrder} {x : ShiftWord} (hx : (rowOf o).Legal x) :
    applyTable (stepTable o) x = ((rowOf o).step x).1 :=
  applyTable_tableOf o.next (congrArg Prod.fst (step_zero o)) (rowOf_step_xor o) _ x
    ((Nat.le_sub_one_iff_lt (Nat.two_pow_pos _)).1 hx.2)

theorem iterate_applyTable_stepTable {o : PrbsOrder} {x : ShiftWord} (hx : (rowOf o).Legal x)
    (k : Nat) : (applyTable (stepTable o))^[k] x = (rowOf o).after k x := by
  induction k generalizing x with
  | zero => rfl
  | succ k ih =>
    rw [after_succ, Function.iterate_succ_apply, applyTable_stepTable hx, ih (legal_step hx)]

/-- Fewer steps from a legal value than the order's register has values are computed by as many squarings
of the step's table as the register has bits. -/
theorem iterateTable_stepTable {o : PrbsOrder} {x : ShiftWord} (hx : (rowOf o).Legal x) {k : Nat}
    (hk : k < 2 ^ o.degree) :
    iterateTable o.degree (stepTable o) k x = (rowOf o).after k x := by
  rw [iterateTable_eq_iterate _ _ hk, iterate_applyTable_stepTable hx]

/-! ### The period of one value -/

/-- The prime factors of the number of an order's legal values. -/
def periodPrimes : PrbsOrder → List Nat
  | .prbs7 => [127]
  | .prbs9 => [7, 73]
  | .prbs11 => [23, 89]
  | .prbs15 => [7, 31, 151]
  | .prbs23 => [47, 178481]
  | .prbs31 => [2147483647]

theorem periodPrimes_prod (o : PrbsOrder) : (periodPrimes o).prod = 2 ^ o.degree - 1 := by
  cases o <;> rfl

theorem periodPrimes_prime (o : PrbsOrder) : ∀ p ∈ periodPrimes o, p.Prime := by
  have hmersenne : Nat.Prime 2147483647 :=
    lucas_lehmer_sufficiency 31 (by norm_num) (by norm_num)
  cases o <;> simp [periodPrimes, hmersenne] <;> norm_num

theorem mem_periodPrimes_of_dvd {o : PrbsOrder} {p : Nat} (hp : p.Prime)
    (hdvd : p ∣ 2 ^ o.degree - 1) : p ∈ periodPrimes o :=
  mem_list_primes_of_dvd_prod hp.prime (fun q hq => (periodPrimes_prime o q hq).prime)
    (periodPrimes_prod o ▸ hdvd)

theorem legal_one (o : PrbsOrder) : (rowOf o).Legal 1#31 := by
  cases o <;> decide

/-- The computation behind the period: `2^n - 1` steps lead from 1 to 1. -/
theorem iterateTable_period (o : PrbsOrder) :
    iterateTable o.degree (stepTable o) (2 ^ o.degree - 1) 1#31 = 1#31 := by
  cases o <;> decide +kernel

/-- The other half: none of the numbers `(2^n - 1) / p` of steps leads from 1 to 1. -/
theorem iterateTable_period_div_prime (o : PrbsOrder) :
    ∀ p ∈ periodPrimes o,
      iterateTable o.degree (stepTable o) ((2 ^ o.degree - 1) / p) 1#31 ≠ 1#31 := by
  cases o <;> decide +kernel

/-- A period is the least one when no quotient of it by a prime is a period. -/
theorem minimalPeriod_eq_of_not_isPeriodicPt_div {α : Type} {f : α → α} {x : α} {N : Nat}
    (hperiod : Function.IsPeriodicPt f N x)
    (hprime : ∀ p, p.Prime → p ∣ N → ¬ Function.IsPeriodicPt f (N / p) x) :
    Function.minimalPeriod f x = N := by
  obtain ⟨c, hc⟩ := hperiod.minimalPeriod_dvd
  by_cases hone : c = 1
  · rw [hc, hone, Nat.mul_one]
  · obtain ⟨p, hp, d, rfl⟩ := Nat.exists_prime_and_dvd hone
    have hfactor : N = p * (Function.minimalPeriod f x * d) := hc.trans (Nat.mul_left_comm ..)
    have hdiv : N / p = Function.minimalPeriod f x * d :=
      Nat.div_eq_of_eq_mul_right hp.pos hfactor
    exact absurd (hdiv ▸ (Function.isPeriodicPt_minimalPeriod f x).mul_const d)
      (hprime p hp ⟨_, hfactor⟩)

/-- From 1 the register returns to 1 after `2^n - 1` steps for the first time (R86). -/
theorem minimalPeriod_one (o : PrbsOrder) :
    Function.minimalPeriod o.next 1#31 = 2 ^ o.degree - 1 := by
  have hlt : 2 ^ o.degree - 1 < 2 ^ o.degree := Nat.sub_one_lt (Nat.two_pow_pos _).ne'
  refine minimalPeriod_eq_of_not_isPeriodicPt_div ?_ fun p hp hdvd hreturns => ?_
  · exact (iterateTable_stepTable (legal_one o) hlt).symm.trans (iterateTable_period o)
  · exact iterateTable_period_div_prime o p (mem_periodPrimes_of_dvd hp hdvd)
      ((iterateTable_stepTable (legal_one o) ((Nat.div_le_self _ _).trans_lt hlt)).trans hreturns)

/-! ### The period of every value -/

/-- The legal values as numbers. -/
theorem legal_iff_mem_range' (o : PrbsOrder) (x : ShiftWord) :
    (rowOf o).Legal x ↔ x.toNat ∈ List.range' 1 (2 ^ o.degree - 1) := by
  simp only [List.mem_range'_1, TapRow.Legal, rowOf_n]
  omega

/-- A register that returns after `2^n - 1` steps for the first time visits every legal value once, for
there are no more of them. -/
theorem visits_perm_of_minimalPeriod {o : PrbsOrder} {x : ShiftWord} (hx : (rowOf o).Legal x)
    (hperiod : Function.minimalPeriod o.next x = 2 ^ o.degree - 1) :
    ((List.range (2 ^ o.degree - 1)).map fun k => ((rowOf o).after k x).toNat).Perm
      (List.range' 1 (2 ^ o.degree - 1)) := by
  refine (List.subperm_of_subset ?_ ?_).perm_of_length_le (by simp)
  · refine List.Nodup.map_on (fun j hj k hk heq => ?_) List.nodup_range
    rw [List.mem_range, ← hperiod] at hj hk
    exact Function.iterate_injOn_Iio_minimalPeriod hj hk (BitVec.eq_of_toNat_eq heq)
  · intro m hm
    obtain ⟨k, -, rfl⟩ := List.mem_map.1 hm
    exact (legal_iff_mem_range' o _).1 (legal_after k hx)

/-- So it reaches every legal value. -/
theorem exists_after_eq_of_minimalPeriod {o : PrbsOrder} {x y : ShiftWord}
    (hx : (rowOf o).Legal x) (hperiod : Function.minimalPeriod o.next x = 2 ^ o.degree - 1)
    (hy : (rowOf o).Legal y) : ∃ k, k < 2 ^ o.degree - 1 ∧ (rowOf o).after k x = y := by
  have hmem := (visits_perm_of_minimalPeriod hx hperiod).mem_iff.2 ((legal_iff_mem_range' o y).1 hy)
  obtain ⟨k, hk, heq⟩ := List.mem_map.1 hmem
  exact ⟨k, List.mem_range.1 hk, BitVec.eq_of_toNat_eq heq⟩

/-- Every legal value lies on the cycle of 1, so it has the same period (R86). -/
theorem minimalPeriod_of_legal {o : PrbsOrder} {x : ShiftWord} (hx : (rowOf o).Legal x) :
    Function.minimalPeriod o.next x = 2 ^ o.degree - 1 := by
  have hone := minimalPeriod_one o
  obtain ⟨k, hk, rfl⟩ := exists_after_eq_of_minimalPeriod (legal_one o) hone hx
  have hperiodic : 1#31 ∈ Function.periodicPts o.next :=
    Function.minimalPeriod_pos_iff_mem_periodicPts.1 (by omega)
  exact (Function.minimalPeriod_apply_iterate hperiodic k).trans hone

/-- `2^n - 1` steps lead a legal value back to itself (R86). -/
theorem after_period {o : PrbsOrder} {x : ShiftWord} (hx : (rowOf o).Legal x) :
    (rowOf o).after (2 ^ o.degree - 1) x = x := by
  rw [← minimalPeriod_of_legal hx]
  exact Function.iterate_minimalPeriod

/-- No smaller positive number of steps does (R86). -/
theorem after_ne_of_lt_period {o : PrbsOrder} {x : ShiftWord} (hx : (rowOf o).Legal x) {k : Nat}
    (hpos : 0 < k) (hk : k < 2 ^ o.degree - 1) : (rowOf o).after k x ≠ x :=
  Function.not_isPeriodicPt_of_pos_of_lt_minimalPeriod hpos.ne' (minimalPeriod_of_legal hx ▸ hk)

/-- Settles O25. The bits have the states' period: bits that repeated sooner would fill the register with the
same contents sooner. -/
theorem periodIsMaximal : Obligations.PeriodIsMaximal := by
  intro r hr x hx
  obtain ⟨o, rfl⟩ := exists_order_of_mem hr
  refine ⟨after_period hx, fun k => after_ne_of_lt_period hx,
    fun y hy => exists_after_eq_of_minimalPeriod hx (minimalPeriod_of_legal hx) hy,
    fun k => ?_, fun p hpos hp => ?_⟩
  · rw [bitAt_add, rowOf_n, after_period hx]
  · by_contra! hrepeats
    have hfilled := after_degree_eq_of_bitAt_eq (legal_after p hx) hx fun k =>
      (bitAt_add _ k p x).symm.trans (hrepeats k)
    rw [← after_add, Nat.add_comm, after_add] at hfilled
    exact after_ne_of_lt_period (legal_after _ hx) hpos hp hfilled

/-! ### The step as a permutation -/

/-- The value that the spec gives as a predecessor of `y`, its top bit being `b` (R85). -/
def predecessor (o : PrbsOrder) (y : ShiftWord) (b : Bool) : ShiftWord :=
  (y >>> 1) ||| ((BitVec.ofBool b).setWidth 31 <<< (o.degree - 1))

theorem predecessor_getLsbD (o : PrbsOrder) (y : ShiftWord) (b : Bool) {i : Nat} (hi : i < 31) :
    (predecessor o y b).getLsbD i = (y.getLsbD (i + 1) || (b && decide (i = o.degree - 1))) := by
  rw [predecessor, BitVec.getLsbD_or, BitVec.getLsbD_ushiftRight, BitVec.getLsbD_shiftLeft,
    BitVec.getLsbD_setWidth, BitVec.getLsbD_ofBool, Nat.add_comm]
  grind

/-- The feedback of a predecessor: its top bit is tapped, and the other tap lies below it (R14, R85). -/
theorem step_predecessor_snd {o : PrbsOrder} {y : ShiftWord} (hy : (rowOf o).Legal y) (b : Bool) :
    ((rowOf o).step (predecessor o y b)).2 = (b ^^ y.getLsbD o.taps.2) := by
  obtain ⟨ht1, hpos, hlt⟩ := o.taps_bounds
  have hdegree := o.degree_le
  have htop := ((legal_iff o y).1 hy).2 o.degree le_rfl
  rw [rowOf_step_snd, rowOf_t1, rowOf_t2, ht1, predecessor_getLsbD o y b (by omega),
    predecessor_getLsbD o y b (by omega), Nat.sub_add_cancel hpos, Nat.sub_add_cancel (by omega), htop]
  simp [show o.taps.2 - 1 ≠ o.degree - 1 by omega]

/-- A predecessor whose feedback is the low bit of `y` steps to `y` (R85). -/
theorem step_predecessor_fst {o : PrbsOrder} {y : ShiftWord} (hy : (rowOf o).Legal y) {b : Bool}
    (hb : ((rowOf o).step (predecessor o y b)).2 = y.getLsbD 0) :
    ((rowOf o).step (predecessor o y b)).1 = y := by
  refine BitVec.eq_of_getLsbD_eq fun i hi => ?_
  rcases Nat.lt_or_ge i o.degree with hlt | hge
  · cases i with
    | zero => rw [step_getLsbD_zero, hb]
    | succ i =>
      rw [step_getLsbD_succ hlt, predecessor_getLsbD o y b (by omega),
        decide_eq_false (by omega), Bool.and_false, Bool.or_false]
  · rw [step_getLsbD_of_degree_le hge, ((legal_iff o y).1 hy).2 i hge]

/-- So exactly one top bit makes the feedback the low bit of `y` (R85). -/
theorem step_predecessor_snd_eq_iff {o : PrbsOrder} {y : ShiftWord} (hy : (rowOf o).Legal y)
    (b : Bool) : ((rowOf o).step (predecessor o y b)).2 = y.getLsbD 0 ↔
      b = (y.getLsbD 0 ^^ y.getLsbD o.taps.2) := by
  rw [step_predecessor_snd hy, ← Bool.xor_left_inj (z := y.getLsbD o.taps.2), Bool.xor_assoc,
    Bool.xor_self, Bool.xor_false]

/-- A legal value is where the rest of the period leads from its successor. -/
theorem after_step_of_legal {o : PrbsOrder} {x : ShiftWord} (hx : (rowOf o).Legal x) :
    (rowOf o).after (2 ^ o.degree - 1 - 1) ((rowOf o).step x).1 = x := by
  have := Nat.one_lt_two_pow o.degree_pos.ne'
  rw [← after_succ, Nat.sub_add_cancel (by omega), after_period hx]

/-- Settles O24. The cycle of `y` has length `2^n - 1`, and its one predecessor is the value before it there. -/
theorem stepIsAPermutation : Obligations.StepIsAPermutation := by
  intro r hr y hy
  obtain ⟨o, rfl⟩ := exists_order_of_mem hr
  have hpos : 0 < 2 ^ o.degree - 1 := Nat.sub_pos_of_lt (Nat.one_lt_two_pow o.degree_pos.ne')
  refine ⟨legal_step hy, ⟨(rowOf o).after (2 ^ o.degree - 1 - 1) y, ⟨legal_after _ hy, ?_⟩, ?_⟩,
    ⟨_, (step_predecessor_snd_eq_iff hy _).2 rfl, fun b => (step_predecessor_snd_eq_iff hy b).1⟩,
    fun b => step_predecessor_fst hy, 2 ^ o.degree - 1, hpos, after_period hy⟩
  · rw [← after_succ', Nat.sub_add_cancel hpos, after_period hy]
  · rintro x ⟨hx, rfl⟩
    exact (after_step_of_legal hx).symm

/-! ### One period's ones and zeros -/

/-- Among the numbers from 1 to `2 m + 1` there are `m + 1` odd ones. -/
theorem countP_odd_range' (m : Nat) :
    (List.range' 1 (2 * m + 1)).countP (fun k => k.testBit 0) = m + 1 := by
  induction m with
  | zero => rfl
  | succ m ih =>
    rw [show 2 * (m + 1) + 1 = 2 * m + 1 + 1 + 1 by omega, List.range'_concat, List.range'_concat,
      List.countP_append, List.countP_append, ih, List.countP_singleton, List.countP_singleton,
      Nat.testBit_zero, Nat.testBit_zero, if_neg (by simp; omega), if_pos (by simp; omega)]

/-- An emitted bit is the low bit of the register after the step (R79). -/
theorem bitAt_eq_testBit (o : PrbsOrder) (k : Nat) (x : ShiftWord) :
    (rowOf o).bitAt k x = ((rowOf o).after k ((rowOf o).step x).1).toNat.testBit 0 := by
  rw [← after_succ, after_succ', TapRow.bitAt, ← step_getLsbD_zero]
  rfl

/-- Settles O27: over one period the register holds every legal value once, and each step emits the low bit
of the value it leads to. -/
theorem onePeriodIsBalanced : Obligations.OnePeriodIsBalanced := by
  intro r hr x hx
  obtain ⟨o, rfl⟩ := exists_order_of_mem hr
  obtain ⟨m, hm⟩ := Nat.exists_eq_succ_of_ne_zero (Nat.two_pow_pos (o.degree - 1)).ne'
  have hperiod : 2 ^ o.degree - 1 = 2 * m + 1 := by
    rw [← mul_pow_sub_one o.degree_pos.ne', hm]
    omega
  have hvisits :=
    visits_perm_of_minimalPeriod (legal_step hx) (minimalPeriod_of_legal (legal_step hx))
  have hones : (List.range (2 ^ o.degree - 1)).countP (fun k => (rowOf o).bitAt k x) = m + 1 := by
    rw [← countP_odd_range', ← hperiod, ← hvisits.countP_eq, List.countP_map]
    exact List.countP_congr fun k _ => by rw [bitAt_eq_testBit]; rfl
  have htotal := List.length_eq_countP_add_countP (fun k => (rowOf o).bitAt k x)
    (l := List.range (2 ^ o.degree - 1))
  simp only [decide_not, Bool.decide_eq_true, List.length_range, hones] at htotal
  rw [rowOf_n, hm]
  exact ⟨hones, by omega⟩

end Sys2Proof.Machine
end

section
/-! GENERATE (spec/42_generate.md): the command (R91, R95), how it compares with NEXT_BITs and with other GENERATEs
(R92, R93), whole periods (R96-R98), and the host's driver (R94). -/

namespace Sys2Proof.Machine

/-! ### Emitting bits between transfers -/

@[simp] theorem State.send_send (ts us : List Transfer) (s : State) :
    (s.send ts).send us = s.send (ts ++ us) := by
  simp [State.send]

@[simp] theorem emit_send (ts : List Transfer) (s : State) :
    emit (s.send ts) = ((emit s).1.send ts, (emit s).2) := rfl

/-- What has been sent has no part in the bits emitted next. -/
@[simp] theorem emitN_send (k : Nat) (ts : List Transfer) (s : State) :
    emitN k (s.send ts) = ((emitN k s).1.send ts, (emitN k s).2) := by
  induction k generalizing s with
  | zero => rfl
  | succ k ih => exact congrArg (fun p => (p.1, (emit s).2 :: p.2)) (ih (emit s).1)

/-- With an instance of a row the bits emitted are the row's, and the register takes the row's steps (R91). -/
theorem emitN_of_heldBy {r : TapRow} {s : State} (h : r.HeldBy s) (k : Nat) :
    (emitN k s).1.state = r.after k s.state ∧
      (emitN k s).2 = (List.range k).map (fun j => r.bitAt j s.state) := by
  obtain ⟨-, ho, h1, h2, -⟩ := h
  exact emitN_of_row r k s ho h1 h2

/-! ### The command -/

/-- With an instance GENERATE sends the bits it emits and then the word 0x00 (R91). -/
theorem exec_generate_eq_of_valid {s : State} (hs : s.valid = true) (count : Nat) :
    exec (.generate count) s =
      .next ((emitN count s).1.send ((emitN count s).2.map .bitOut ++ [.resp 0x00#8])) := by
  rw [exec_generate_of_valid hs, State.respond, State.send_send]
  rfl

/-- Settles O29. Emitting bits writes STATE and LIFE alone. -/
theorem generateEmitsCountBits : Obligations.GenerateEmitsCountBits := by
  refine ⟨fun w => decode_generate, fun count s hs => exec_generate_of_not_valid hs count,
    fun r _ count s hs => ?_, fun count s hs => ⟨_, exec_generate_eq_of_valid hs count, ?_, ?_⟩,
    by decide, ⟨_, rfl, by decide, by decide⟩⟩
  · obtain ⟨hstate, hbits⟩ := emitN_of_heldBy hs count
    rw [exec_generate_eq_of_valid hs.1, emitN_frame, emitN_life, hstate, hbits]
    simp [State.send]
  · simp [Nat.add_assoc]
  · simp

/-- The transaction of a GENERATE with an instance: the host reads the bits emitted (R52, R95). -/
theorem transact_generate {s : State} (hs : s.valid = true) (count : Nat) :
    transact (.generate count) s =
      .next ((emitN count s).1.send ((emitN count s).2.map .bitOut ++ [.resp 0x00#8]),
        ⟨.ok, (emitN count s).2⟩) :=
  transact_of_sent (st := .ok) (b := false) (exec_generate_eq_of_valid hs count)
    (by simp [respWord_ok])

/-- Settles O32: the host reads all the bits emitted, and from a row's instance they are the row's. -/
theorem generateReturnsExactlyCountBits : Obligations.GenerateReturnsExactlyCountBits := by
  refine fun count s hs => ⟨_, _, transact_generate hs count, rfl, emitN_length count s, ?_, ?_,
    fun r _ hr => (emitN_of_heldBy hr count).2⟩
  · rintro rfl
    rfl
  · simp

/-! ### NEXT_BITs and GENERATEs one after the other -/

/-- NEXT_BITs emit one bit each, and answer it (R81, R92). -/
theorem runCommands_replicate_nextBit (count : Nat) {s : State} (hs : s.valid = true) :
    runCommands (List.replicate count .nextBit) s =
      .next ((emitN count s).1.send ((emitN count s).2.map fun b => .resp (respWord .ok b))) := by
  induction count generalizing s with
  | zero => simp [runCommands, State.send]
  | succ count ih =>
    rw [List.replicate_succ, runCommands_cons (exec_nextBit_of_valid hs),
      ih (s := (emit s).1.send _) hs, emitN_send, State.send_send]
    rfl

/-- Settles O30: both emit the same bits, and sending writes no register. -/
theorem generateIsRepeatedNextBit : Obligations.GenerateIsRepeatedNextBit := by
  refine fun count s hs => ⟨(emitN count s).2, _, _, exec_generate_eq_of_valid hs count,
    runCommands_replicate_nextBit count hs, ⟨rfl, rfl, rfl, rfl, rfl, rfl⟩,
    emitN_length count s, ?_, ?_⟩
  · simp
  · simp [respWord_ok]

/-- Settles O31: emitting `a + b` bits is emitting `a` and then `b`. -/
theorem generateSplitsAnywhere : Obligations.GenerateSplitsAnywhere := by
  intro a b s hs _
  have hsecond (ts : List Transfer) : ((emitN a s).1.send ts).valid = true := by simp [hs]
  have hrun : runCommands [.generate a, .generate b] s =
      .next ((emitN b (emitN a s).1).1.send ((emitN a s).2.map .bitOut ++ [.resp 0x00#8] ++
        ((emitN b (emitN a s).1).2.map .bitOut ++ [.resp 0x00#8]))) := by
    rw [runCommands_cons (exec_generate_eq_of_valid hs a),
      runCommands_cons (exec_generate_eq_of_valid (hsecond _) b), emitN_send, State.send_send]
    rfl
  have hone := exec_generate_eq_of_valid hs (a + b)
  rw [emitN_add] at hone
  refine ⟨(emitN a s).2, (emitN b (emitN a s).1).2, _, _, hrun, hone, ⟨rfl, rfl, rfl, rfl, rfl, rfl⟩,
    emitN_length a s, emitN_length b _, ?_, ?_⟩
  · simp
  · simp

/-- With an instance a command that emits bits does nothing to the registers but emit them (R81, R91). -/
theorem exec_of_emits {i : Instr} (hi : emits i = true) {s : State} (hs : s.valid = true) :
    ∃ ts, exec i s = .next ((emitN (emittedBy i) s).1.send ts) := by
  cases i with
  | construct n => cases hi
  | constructS n seed => cases hi
  | nextBit => exact ⟨_, exec_nextBit_of_valid hs⟩
  | generate count => exact ⟨_, exec_generate_eq_of_valid hs count⟩
  | reserved => cases hi

/-- So do commands that emit bits one after the other. -/
theorem runCommands_of_emits {cmds : List Instr} (hcmds : ∀ i ∈ cmds, emits i = true) {s : State}
    (hs : s.valid = true) :
    ∃ ts, runCommands cmds s = .next ((emitN (cmds.map emittedBy).sum s).1.send ts) := by
  induction cmds generalizing s with
  | nil => exact ⟨[], by simp [runCommands, State.send]⟩
  | cons i is ih =>
    obtain ⟨ts, hexec⟩ := exec_of_emits (hcmds i (by simp)) hs
    obtain ⟨us, hrun⟩ := ih (fun j hj => hcmds j (by simp [hj]))
      (s := (emitN (emittedBy i) s).1.send ts) (by simp [hs])
    exact ⟨ts ++ us, by
      rw [runCommands_cons hexec, hrun, emitN_send, State.send_send, List.map_cons, List.sum_cons,
        emitN_add]⟩

/-! ### Whole periods -/

/-- A legal value comes back after the multiples of the period alone (R98). -/
theorem after_eq_self_iff {o : PrbsOrder} {x : ShiftWord} (hx : (rowOf o).Legal x) (k : Nat) :
    (rowOf o).after k x = x ↔ 2 ^ o.degree - 1 ∣ k := by
  rw [← minimalPeriod_of_legal hx]
  exact Function.isPeriodicPt_iff_minimalPeriod_dvd

/-- Settles O35: the commands together take as many steps as the bits they emit. -/
theorem stateReturnsAfterWholePeriods : Obligations.StateReturnsAfterWholePeriods := by
  intro r hr s cmds hs hcmds
  obtain ⟨o, rfl⟩ := exists_order_of_mem hr
  have ⟨hvalid, _, _, _, hlegal⟩ := hs
  obtain ⟨ts, hrun⟩ := runCommands_of_emits hcmds hvalid
  refine ⟨_, hrun, ?_⟩
  rw [State.send_state, (emitN_of_heldBy hs _).1]
  exact after_eq_self_iff hlegal _

/-- Settles O33, by the period of the row's bits (O25). -/
theorem bitsRepeatAfterOnePeriod : Obligations.BitsRepeatAfterOnePeriod := by
  intro r hr count s hs
  have ⟨hvalid, _, _, _, hlegal⟩ := hs
  obtain ⟨-, -, -, hrepeat, -⟩ := periodIsMaximal r hr s.state hlegal
  refine ⟨_, _, transact_generate hvalid count, rfl, fun k hk => ?_⟩
  have hbit {j : Nat} (hj : j < count) : (emitN count s).2[j]? = some (r.bitAt j s.state) := by
    rw [(emitN_of_heldBy hs count).2, List.getElem?_map, List.getElem?_range hj, Option.map_some]
  rw [hbit (by omega), hbit (by omega), hrepeat]

/-- One period of bits leaves the register as it was (R98). -/
theorem emitN_period_state {o : PrbsOrder} {s : State} (h : (rowOf o).HeldBy s) :
    (emitN (2 ^ o.degree - 1) s).1.state = s.state := by
  have ⟨_, _, _, _, hlegal⟩ := h
  rw [(emitN_of_heldBy h _).1, after_period hlegal]

/-- So the bit after one period is the first again (R96, R97). -/
theorem emit_emitN_period_snd {o : PrbsOrder} {s : State} (h : (rowOf o).HeldBy s) :
    (emit (emitN (2 ^ o.degree - 1) s).1).2 = (emit s).2 := by
  simp [emit, emitN_period_state h]

theorem emitN_head? {k : Nat} (hk : k ≠ 0) (s : State) :
    (emitN k s).2.head? = some (emit s).2 := by
  obtain ⟨k, rfl⟩ := Nat.exists_eq_succ_of_ne_zero hk
  rfl

/-- An instance started from a legal value is an instance of its row (R70). -/
theorem started_heldBy {o : PrbsOrder} {x : ShiftWord} (hx : (rowOf o).Legal x) (s : State) :
    (rowOf o).HeldBy ((rowOf o).started x s) :=
  ⟨rfl, rfl, rfl, rfl, hx⟩

/-- Settles O34: the first bit from all ones is 0, and one period later it comes again. -/
theorem periodTestOfEachOrder : Obligations.PeriodTestOfEachOrder := by
  intro r hr s
  obtain ⟨o, rfl⟩ := exists_order_of_mem hr
  have hone : 1 < 2 ^ o.degree := Nat.one_lt_two_pow o.degree_pos.ne'
  have hfits : 2 ^ o.degree - 1 < 4294967296 := by
    have : 2 ^ o.degree ≤ 2 ^ 31 := Nat.pow_le_pow_right two_pos o.degree_le
    omega
  have hstarted : exec (.construct o.degree) s = .next ((rowOf o).started (mask o.degree) s) :=
    congrArg _ (construct_eq_started (check_none o) s)
  have hheld := started_heldBy (legal_mask o) s
  have hfirst : (emit ((rowOf o).started (mask o.degree) s)).2 = false := (step_corner_cases o).1
  have hnext := (emit_emitN_period_snd hheld).trans hfirst
  refine ⟨_, _, (emitN (2 ^ o.degree - 1) ((rowOf o).started (mask o.degree) s)).2,
    (runCommands_cons hstarted _).trans
      (runCommands_cons (exec_generate_eq_of_valid hheld.1 _) []),
    ?_, emitN_length _ _, (emitN_head? (by omega) _).trans (congrArg _ hfirst),
    emitN_period_state hheld, decide_eq_true hfits,
    exec_nextBit_of_valid ((emitN_valid _ _).trans hheld.1), ?_⟩
  · simp [TapRow.started]
  · simp [hnext, respWord_ok]

/-! ### The driver -/

/-- The bridge leaves a seed that the checker accepts as it is (R49, R66). -/
theorem map_bridgeSeed_of_accepted {n : Nat} {seed : Option Seed} (h : check n seed = .ok) :
    seed.map bridgeSeed = seed := by
  obtain ⟨o, rfl, rfl | ⟨v, rfl, hpos, hle⟩⟩ := (check_eq_ok_iff n seed).1 h
  · rfl
  · obtain ⟨-, hbound⟩ := two_pow_degree_bounds o
    obtain ⟨hbeyond, -⟩ | ⟨hbeyond, -⟩ | ⟨-, hsame⟩ := bridgeSeed_cases v
    · omega
    · omega
    · rw [Option.map_some, hsame]

/-- The bridge keeps the checker's status of every seed operand (R49, R66). -/
theorem check_map_bridgeSeed (n : Nat) (seed : Option Seed) :
    check n (seed.map bridgeSeed) = check n seed := by
  match seed with
  | none => rfl
  | some .nonInteger => rfl
  | some (.integer v) => exact (saturatingBridgeKeepsTheStatus.2 n v).2

/-- The transaction of a construction: the host reads the checker's status (R52, R68, R69). -/
theorem transact_constructCommand (n : Nat) (seed : Option Seed) (s : State) :
    transact (constructCommand n seed) s = .next (construct n seed s, ⟨check n seed, []⟩) := by
  have hsent : (construct n seed s).sent =
      s.sent ++ [].map .bitOut ++ [.resp (respWord (check n seed) false)] := by
    obtain ⟨-, h⟩ | ⟨hok, o, -, h⟩ := construct_cases n seed s
    · simp [h]
    · simp [h, hok]
  rw [transact_of_sent (exec_constructCommand n seed s) hsent]
  cases seed <;> rfl

/-- GENERATEs one after the other return the bits of one run of the sum of their counts (R93). -/
theorem generateAll_of_valid (counts : List Nat) {s : State} (hs : s.valid = true) :
    ∃ ts, generateAll counts s =
      .next ((emitN counts.sum s).1.send ts, (emitN counts.sum s).2) := by
  induction counts generalizing s with
  | nil => exact ⟨[], by simp [generateAll, State.send]⟩
  | cons c cs ih =>
    obtain ⟨ts, hrest⟩ := ih (s := (emitN c s).1.send
      ((emitN c s).2.map .bitOut ++ [.resp 0x00#8])) (by simp [hs])
    exact ⟨(emitN c s).2.map .bitOut ++ [.resp 0x00#8] ++ ts, by
      simp only [generateAll, transact_generate hs, hrest, emitN_send, State.send_send,
        List.sum_cons, emitN_add]⟩

/-- Settles O36. The bridge changes neither the checker's status nor an accepted seed, and the GENERATEs of a
split run return what one GENERATE of their sum would. -/
theorem driverConstructsThenGenerates : Obligations.DriverConstructsThenGenerates := by
  refine fun n seed count s => ⟨fun h => ?_, fun h => ?_⟩
  · have hstatus := check_map_bridgeSeed n seed
    simp only [prbs, transact_constructCommand, hstatus, if_neg h,
      construct_eq_of_refused hstatus h]
  · obtain ⟨o, rfl, -⟩ := (check_eq_ok_iff n seed).1 h
    have hconstruct := construct_eq_started h s
    have hheld := started_heldBy (legal_initState h) s
    obtain ⟨hstate, hbits⟩ := emitN_of_heldBy hheld count
    obtain ⟨ts, hrun⟩ := generateAll_of_valid (generateCounts count) hheld.1
    rw [generateCounts_sum, hbits] at hrun
    refine ⟨rowOf o, rowOf_mem o, rfl, _, (emitN count _).1.send ts,
      (exec_constructCommand _ _ _).trans (congrArg _ hconstruct), hheld, ?_, hstate⟩
    simp only [prbs, map_bridgeSeed_of_accepted h, transact_constructCommand, hconstruct, h, if_pos, hrun]

end Sys2Proof.Machine
end

section
/-! Statuses, idling and systems of blocks (spec/60_exceptions.md): the status of every command (R102-R105), what a
block does without a host action (R111), and what happens to one block of a system (R112). -/

namespace Sys2Proof.Machine

/-! ### The status of a command -/

/-- The status that a command reports: the checker's for a construction, whether an instance exists for a command
that emits bits, and ERR_BAD_OP for the reserved operation (R102). -/
def commandStatus (i : Instr) (s : State) : Status :=
  match i with
  | .construct n => check n none
  | .constructS n seed => check n (some seed)
  | .nextBit => if s.valid then .ok else .errNotConstructed
  | .generate _ => if s.valid then .ok else .errNotConstructed
  | .reserved => .errBadOp

@[simp] theorem commandStatus_constructCommand (n : Nat) (seed : Option Seed) (s : State) :
    commandStatus (constructCommand n seed) s = check n seed := by
  cases seed <;> rfl

/-- NEXT_BIT and GENERATE report whether there is an instance, and nothing else (R80, R91). -/
theorem commandStatus_of_emits {i : Instr} (hi : emits i = true) (s : State) :
    commandStatus i s = if s.valid then .ok else .errNotConstructed := by
  cases i with
  | construct n => cases hi
  | constructS n seed => cases hi
  | nextBit => rfl
  | generate count => rfl
  | reserved => cases hi

/-- From `s` to `t` the response word `word` is what was sent last, with the status `st`; and unless that is OK
it is all that has changed (R105). -/
def Reports (st : Status) (s t : State) (word : RespWord) : Prop :=
  t.sent.getLast? = some (.resp word) ∧ word.extractLsb' 0 3 = st.code ∧
    (st ≠ .ok → t = s.send [.resp word])

theorem reports_fail (st : Status) (s : State) : Reports st s (s.fail st) (respWord st false) :=
  ⟨by simp, respWord_status st false, fun _ => rfl⟩

/-- With the status OK only the last response word counts. -/
theorem reports_ok {s t : State} {ts : List Transfer} {b : Bool}
    (hsent : t.sent = ts ++ [.resp (respWord .ok b)]) : Reports .ok s t (respWord .ok b) :=
  ⟨by simp [hsent], respWord_status .ok b, fun h => absurd rfl h⟩

theorem reports_construct (n : Nat) (seed : Option Seed) (s : State) :
    ∃ word, Reports (check n seed) s (construct n seed s) word := by
  obtain ⟨-, h⟩ | ⟨hok, o, -, h⟩ := construct_cases n seed s
  · exact ⟨_, h ▸ reports_fail (check n seed) s⟩
  · rw [hok, h]
    exact ⟨_, reports_ok rfl⟩

/-- Every command answers a next state and reports its status there (R102, R105). -/
theorem exec_reports (i : Instr) (s : State) :
    ∃ t word, exec i s = .next t ∧ Reports (commandStatus i s) s t word := by
  cases i with
  | construct n =>
    obtain ⟨word, hreports⟩ := reports_construct n none s
    exact ⟨_, word, exec_construct n s, hreports⟩
  | constructS n seed =>
    obtain ⟨word, hreports⟩ := reports_construct n (some seed) s
    exact ⟨_, word, exec_constructS n seed s, hreports⟩
  | nextBit =>
    rw [commandStatus_of_emits rfl]
    cases hv : s.valid with
    | false => exact ⟨_, _, exec_nextBit_of_not_valid hv, reports_fail _ s⟩
    | true => exact ⟨_, _, exec_nextBit_of_valid hv, reports_ok rfl⟩
  | generate count =>
    rw [commandStatus_of_emits rfl]
    cases hv : s.valid with
    | false => exact ⟨_, _, exec_generate_of_not_valid hv count, reports_fail _ s⟩
    | true => exact ⟨_, _, exec_generate_of_valid hv count, reports_ok rfl⟩
  | reserved => exact ⟨_, _, exec_reserved s, reports_fail .errBadOp s⟩

/-! ### Which status it is -/

/-- The code of an integer seed's status, by the checker's two tests in their order (R65, R103). -/
theorem code_check_integer (o : PrbsOrder) (v : Int) :
    (check o.degree (some (.integer v))).code =
      if v ≤ 0 then 2#3 else if v > 2 ^ o.degree - 1 then 3#3 else 0#3 := by
  rw [check_integer, apply_ite Status.code, apply_ite Status.code]
  rfl

/-- The conditions of a construction in the order of R103: ORDER, then SP, ST and the two tests on SEED. -/
theorem code_commandStatus_of_construct {w : CmdWord} (hop : w.extractLsb' 0 2 = 0b00#2)
    (s : State) :
    (commandStatus (decode w) s).code =
      if (w.extractLsb' 2 5).toNat ∉ [7, 9, 11, 15, 23, 31] then 4#3
      else if w.getLsbD 7 = false then 0#3
      else if w.getLsbD 8 = true then 1#3
      else if (w.extractLsb' 64 64).toInt ≤ 0 then 2#3
      else if (w.extractLsb' 64 64).toInt > 2 ^ (w.extractLsb' 2 5).toNat - 1 then 3#3
      else 0#3 := by
  split
  next hreserved =>
    obtain ⟨seed, hdecode⟩ := decode_eq_constructCommand hop
    rw [hdecode, commandStatus_constructCommand, check_reserved_order hreserved]
    rfl
  next horder =>
    obtain ⟨o, ho⟩ := exists_order_of_degree_mem (not_not.1 horder)
    cases hsp : w.getLsbD 7 with
    | false =>
      rw [decode_construct hop hsp, ← ho, commandStatus, check_none]
      rfl
    | true =>
      cases hst : w.getLsbD 8 with
      | false =>
        rw [decode_constructS_integer hop hsp hst, ← ho, commandStatus, code_check_integer]
        rfl
      | true =>
        rw [decode_constructS_nonInteger hop hsp hst, ← ho, commandStatus, check_nonInteger]
        rfl

/-- A word with OP = 0b01 or 0b10 is a command that emits bits (R46). -/
theorem emits_decode {w : CmdWord} (hreserved : w.extractLsb' 0 2 ≠ 0b11#2)
    (hconstruct : w.extractLsb' 0 2 ≠ 0b00#2) : emits (decode w) = true := by
  have hops : ∀ op : BitVec 2, op ≠ 0b11#2 → op ≠ 0b00#2 → op = 0b01#2 ∨ op = 0b10#2 := by decide
  obtain hop | hop := hops _ hreserved hconstruct
  · rw [decode_nextBit hop]
    rfl
  · rw [decode_generate hop]
    rfl

/-- Settles O38: each operation's own conditions give the status it reports. -/
theorem firstConditionGivesTheStatus : Obligations.FirstConditionGivesTheStatus := by
  intro w s
  obtain ⟨t, word, hexec, hlast, hstatus, -⟩ := exec_reports (decode w) s
  refine ⟨t, word, hexec, hlast, hstatus.trans ?_⟩
  split
  next hop =>
    rw [decode_reserved hop]
    rfl
  next hreserved =>
    split
    next hop => exact code_commandStatus_of_construct hop s
    next hconstruct =>
      rw [commandStatus_of_emits (emits_decode hreserved hconstruct)]
      cases s.valid <;> rfl

/-- Settles O37. -/
theorem reservedOperationFails : Obligations.ReservedOperationFails :=
  ⟨fun _ => decode_reserved, fun s => exec_reserved s⟩

/-- The statuses of a construction without a seed (R62, R102). -/
theorem check_none_mem (n : Nat) : check n none ∈ [Status.ok, .errOrder] := by
  by_cases hn : n ∈ [7, 9, 11, 15, 23, 31]
  · obtain ⟨o, rfl⟩ := exists_order_of_degree_mem hn
    simp
  · simp [check_reserved_order hn]

/-- The statuses of a construction with a seed (R62, R102). -/
theorem check_some_mem (n : Nat) (seed : Seed) :
    check n (some seed) ∈ [Status.ok, .errSeedType, .errSeedNonpos, .errSeedRange, .errOrder] := by
  by_cases hn : n ∈ [7, 9, 11, 15, 23, 31]
  · obtain ⟨o, rfl⟩ := exists_order_of_degree_mem hn
    cases seed with
    | nonInteger => simp
    | integer v =>
      rw [check_integer]
      split_ifs <;> simp
  · simp [check_reserved_order hn]

/-- Settles O39: the codes are those of the statuses a command may report. -/
theorem statusCodesOfEachCommand : Obligations.StatusCodesOfEachCommand := by
  intro i s
  obtain ⟨t, word, hexec, hlast, hstatus, -⟩ := exec_reports i s
  refine ⟨t, word, hexec, hlast, ?_⟩
  rw [hstatus]
  cases i with
  | construct n => exact List.mem_map_of_mem (f := Status.code) (check_none_mem n)
  | constructS n seed => exact List.mem_map_of_mem (f := Status.code) (check_some_mem n seed)
  | nextBit =>
    rw [commandStatus_of_emits rfl]
    cases s.valid <;> simp [Status.code]
  | generate count =>
    rw [commandStatus_of_emits rfl]
    cases s.valid <;> simp [Status.code]
  | reserved => simp [commandStatus, Status.code]

/-- Settles O41. -/
theorem failingCommandChangesNoRegister : Obligations.FailingCommandChangesNoRegister := by
  intro i s
  obtain ⟨t, word, hexec, hlast, hstatus, hfails⟩ := exec_reports i s
  refine ⟨t, word, hexec, hlast, fun hcode => hfails fun hok => hcode ?_⟩
  rw [hstatus, hok]
  rfl

/-! ### A block without a host action, and a reset by its host -/

/-- Settles O46. -/
theorem idleBlockHoldsItsState : Obligations.IdleBlockHoldsItsState := by
  intro s hinbox
  simp [step, takeAction, hinbox]

/-- A step whose host action is a reset (R116). -/
theorem step_of_reset {s : State} {rest : List HostAction} (hinbox : s.inbox = .reset :: rest) :
    step s = .next (State.applyReset { s with inbox := rest }) := by
  simp [step, takeAction, hinbox, perform]

/-! ### One block of a system -/

section
variable {Block : Type} {f g : Block → Host.Outcome Block Fault Refusal}

/-- What happens to one block gives that block what happens to it alone, and every other block stays (R112). -/
theorem onBlock_changes_one {system : List Block} {k : Fin system.length} {b : Block}
    (h : f system[k] = .next b) :
    ∃ system', onBlock f system k = .next system' ∧ system'.length = system.length ∧
      system'[k.val]? = some b ∧ ∀ j, j ≠ k.val → system'[j]? = system[j]? := by
  have hnext := onBlock_of_next h
  obtain ⟨hlength, hothers⟩ := onBlock_frame hnext
  exact ⟨_, hnext, hlength, by simp, hothers⟩

/-- What happens to two blocks may happen in either order (R112). -/
theorem onBlock_comm {system afterJ afterK : List Block} {j k : Fin system.length} (hjk : j ≠ k)
    (hj : onBlock f system j = .next afterJ) (hk : onBlock g system k = .next afterK) :
    ∃ (kIn : k.val < afterJ.length) (jIn : j.val < afterK.length) (both : List Block),
      onBlock g afterJ ⟨k.val, kIn⟩ = .next both ∧ onBlock f afterK ⟨j.val, jIn⟩ = .next both := by
  obtain ⟨a, ha, rfl⟩ := onBlock_next_iff.1 hj
  obtain ⟨b, hb, rfl⟩ := onBlock_next_iff.1 hk
  have hne : j.val ≠ k.val := Fin.val_ne_of_ne hjk
  refine ⟨by simp, by simp, (system.set j a).set k b, ?_, ?_⟩
  · exact onBlock_of_next (by simpa [List.getElem_set_ne hne] using hb)
  · rw [List.set_comm a b hne]
    exact onBlock_of_next (by simpa [List.getElem_set_ne hne.symm] using ha)

end

/-- Settles O56: every command answers a next state, and a system's other blocks stay. -/
theorem blocksDoNotAffectEachOther : Obligations.BlocksDoNotAffectEachOther := by
  refine ⟨⟨systemReset_length, by simp [Config.nInst]⟩, fun system k i => ?_⟩
  obtain ⟨t, hexec, -⟩ := exec_answers i system[k]
  obtain ⟨system', hsystem, hlength, hblock, hothers⟩ := onBlock_changes_one hexec
  exact ⟨system', t, hsystem, hexec, hlength, hblock, hothers⟩

/-- Each block of the reset system, with its ports: reset, and no command in progress (R112, R116). -/
theorem mem_systemPorts {p : PortState} (hp : p ∈ systemPorts) :
    ∃ k, p = PortState.idle { State.reset with draws := k } := by
  simp only [systemPorts, systemReset, List.map_map, List.mem_map] at hp
  obtain ⟨k, -, rfl⟩ := hp
  exact ⟨k, rfl⟩

/-- Settles O57: a reset is one of the things that can happen to one block, and what it leaves is the state of
R116. -/
theorem everyBlockHasItsOwnResetAndPorts : Obligations.EveryBlockHasItsOwnResetAndPorts := by
  refine ⟨⟨by simp [systemPorts], fun p hp => ?_⟩, fun system k rest hinbox => ?_,
    fun system k h hrst => ?_, fun system k t hstep => onBlock_changes_one hstep,
    fun system k h q hedge => onBlock_changes_one hedge,
    fun system afterJ afterK j k hj hk hjk => onBlock_comm hjk⟩
  · obtain ⟨k, rfl⟩ := mem_systemPorts hp
    exact ⟨rfl, rfl, rfl, rfl, rfl⟩
  · obtain ⟨system', hsystem, hlength, hblock, hothers⟩ :=
      onBlock_changes_one (step_of_reset hinbox)
    exact ⟨system', _, hsystem, hlength, hblock, rfl, rfl, rfl, rfl, hothers⟩
  · obtain ⟨system', hsystem, hlength, hblock, hothers⟩ :=
      onBlock_changes_one (edge_of_rst hrst system[k])
    exact ⟨system', _, hsystem, hlength, hblock, rfl, rfl, rfl, rfl, rfl, hothers⟩

end Sys2Proof.Machine
end

section
/-! Resets (spec/70_reset_and_hazards.md): a reset between commands and the first commands after it (R116), and a
reset during a command (R118). -/

namespace Sys2Proof.Machine

/-- Without an instance GENERATE sends the word 0x05 alone, whatever its count (R91). -/
theorem exec_generate_eq_of_not_valid {s : State} (hs : s.valid = false) (count : Nat) :
    exec (.generate count) s = .next { s with sent := s.sent ++ [.resp 0x05#8] } :=
  exec_generate_of_not_valid hs count

/-- A step whose host action is a reset during a command (R118). -/
theorem step_of_resetDuring {w : CmdWord} {rest : List HostAction} {s : State}
    (hinbox : s.inbox = .resetDuring w :: rest) : step s = .refused .resetDuringCommand := by
  simp [step, takeAction, hinbox, perform]

/-- Settles O47: a reset clears VALID, and without an instance NEXT_BIT and GENERATE fail. -/
theorem resetLeavesNoInstance : Obligations.ResetLeavesNoInstance := by
  refine ⟨fun rest s hinbox => ?_, fun h p hrst => ?_⟩
  · have hvalid : (State.applyReset { s with inbox := rest }).valid = false :=
      State.applyReset_valid _
    exact ⟨_, step_of_reset hinbox, hvalid, rfl, rfl, rfl, rfl,
      exec_nextBit_eq_of_not_valid hvalid, exec_generate_eq_of_not_valid hvalid⟩
  · exact ⟨_, edge_of_rst hrst p, rfl, rfl, rfl, rfl, rfl⟩

/-- Settles O52: on the ports a reset drops what is owed and leaves what was sent, whether or not a command is in
progress. -/
theorem resetDuringACommandAbandonsIt : Obligations.ResetDuringACommandAbandonsIt := by
  refine ⟨fun w rest s hinbox => step_of_resetDuring hinbox, fun h p hrst _ => ?_⟩
  have hsent : (PortState.idle p.block.applyReset).block.sent = p.block.sent :=
    State.applyReset_sent p.block
  exact ⟨_, edge_of_rst hrst p, rfl, hsent ▸ List.prefix_rfl, fun _ _ => hsent, rfl, rfl⟩

end Sys2Proof.Machine
end

section
/-! The words of the commands (spec/30_encoding.md): encoding and decoding go back and forth (R45-R50), and the opcode
map has one row for each word (R55). -/

namespace Sys2Proof.Machine

/-! ### Encoding and decoding -/

/-- The four values of OP (R46). -/
theorem op_cases (op : BitVec 2) : op = 0b00#2 ∨ op = 0b01#2 ∨ op = 0b10#2 ∨ op = 0b11#2 := by
  revert op
  decide

/-- A seed that fits SEED is read back from it (R48). -/
theorem sval64_ofInt {v : Int} (h : (Seed.integer v).wellFormed = true) :
    sval64 (BitVec.ofInt 64 v) = v := by
  obtain ⟨hmin, hmax⟩ : -9223372036854775808 ≤ v ∧ v ≤ 9223372036854775807 := by
    simpa [Seed.wellFormed] using h
  rw [sval64_eq_toInt, BitVec.toInt_ofInt, Int.bmod_eq_of_le (by omega) (by omega)]

/-- The seed that a word carries fits its fields (R48). -/
theorem seedOperand_wellFormed (st : Bool) (seed : BitVec 64) :
    (seedOperand st seed).wellFormed = true := by
  cases st with
  | true => rfl
  | false =>
    have hmin := seed.le_toInt
    have hmax := seed.toInt_lt
    simp only [seedOperand, sval64_eq_toInt, Bool.false_eq_true, if_false, Seed.wellFormed,
      Bool.and_eq_true, decide_eq_true_eq]
    omega

/-- OP = 0b00 with SP = 1 reads ORDER, and the seed that ST and SEED carry (R48, R54). -/
theorem decode_constructS {w : CmdWord} (hop : w.extractLsb' 0 2 = 0b00#2)
    (hsp : w.getLsbD 7 = true) :
    decode w = .constructS (w.extractLsb' 2 5).toNat (seedOperand (cmdSt w) (cmdSeed w)) := by
  rw [decode, cmdOp, hop, cmdSp, hsp]
  rfl

/-- The fields of a well-formed command's word hold its operands, and its OP, SP and ST say which command it is. -/
theorem decode_encode {i : Instr} (h : i.wellFormed = true) : decode (encode i) = i := by
  cases i with
  | construct n =>
    have hn : n < 32 := by simpa [Instr.wellFormed] using h
    simp [encode, decode, Nat.mod_eq_of_lt hn]
  | constructS n seed =>
    obtain ⟨hn, hseed⟩ : n < 32 ∧ seed.wellFormed = true := by simpa [Instr.wellFormed] using h
    cases seed with
    | nonInteger => simp [encode, decode, seedOperand, Nat.mod_eq_of_lt hn]
    | integer v => simp [encode, decode, seedOperand, Nat.mod_eq_of_lt hn, sval64_ofInt hseed]
  | nextBit => simp [encode, decode]
  | generate count =>
    have hcount : count < 4294967296 := by simpa [Instr.wellFormed] using h
    simp [encode, decode, Nat.mod_eq_of_lt hcount]
  | reserved => simp [encode, decode]

/-- Every word is a well-formed command: an operand read from a field fits it. -/
theorem decode_wellFormed (w : CmdWord) : (decode w).wellFormed = true := by
  have horder : (w.extractLsb' 2 5).toNat < 32 := (w.extractLsb' 2 5).isLt
  have hcount : (w.extractLsb' 32 32).toNat < 4294967296 := (w.extractLsb' 32 32).isLt
  obtain hop | hop | hop | hop := op_cases (w.extractLsb' 0 2)
  · cases hsp : w.getLsbD 7 with
    | false => rw [decode_construct hop hsp, Instr.wellFormed, decide_eq_true horder]
    | true =>
      rw [decode_constructS hop hsp, Instr.wellFormed, seedOperand_wellFormed, decide_eq_true horder,
        Bool.and_self]
  · rw [decode_nextBit hop, Instr.wellFormed]
  · rw [decode_generate hop, Instr.wellFormed, decide_eq_true hcount]
  · rw [decode_reserved hop, Instr.wellFormed]

/-- Settles O2. -/
theorem decodeOfEncodeIsTheCommand : Obligations.DecodeOfEncodeIsTheCommand :=
  ⟨fun _ => decode_encode, decode_wellFormed⟩

/-! ### The opcode map -/

/-- A row whose mask is 1 at OP alone matches the words with the pattern's OP (R55). -/
theorem hits_of_opMask (mnemonic : String) (pattern : BitVec 9) (w : CmdWord) :
    OpcodeRow.hits ⟨mnemonic, pattern, 0x003#9⟩ w =
      decide ((w.extractLsb' 0 2).setWidth 9 = pattern) := by
  have hkept : w.extractLsb' 0 9 &&& 0x003#9 = (w.extractLsb' 0 2).setWidth 9 := by
    ext i hi
    interval_cases i <;> simp
  rw [OpcodeRow.hits, hkept]

/-- A row whose mask is 1 at OP and SP matches the words with the pattern's OP and SP (R55). -/
theorem hits_of_opSpMask (mnemonic : String) (pattern : BitVec 9) (w : CmdWord) :
    OpcodeRow.hits ⟨mnemonic, pattern, 0x083#9⟩ w =
      decide ((BitVec.ofBool (w.getLsbD 7)).setWidth 9 <<< 7 ||| (w.extractLsb' 0 2).setWidth 9 =
        pattern) := by
  have hkept : w.extractLsb' 0 9 &&& 0x083#9 =
      (BitVec.ofBool (w.getLsbD 7)).setWidth 9 <<< 7 ||| (w.extractLsb' 0 2).setWidth 9 := by
    ext i hi
    interval_cases i <;> simp
  rw [OpcodeRow.hits, hkept]

/-- Settles O5, by OP and SP: they are what the rows' masks keep of a word. -/
theorem oneOpcodeRowMatchesEachWord : Obligations.OneOpcodeRowMatchesEachWord := by
  intro w
  simp only [opcodeMap, List.filter_cons, List.filter_nil, hits_of_opMask, hits_of_opSpMask]
  obtain hop | hop | hop | hop := op_cases (w.extractLsb' 0 2)
  · cases hsp : w.getLsbD 7 with
    | false => rw [hop, decode_construct hop hsp]; rfl
    | true => rw [hop, decode_constructS hop hsp]; rfl
  · rw [hop, decode_nextBit hop]
    cases w.getLsbD 7 <;> rfl
  · rw [hop, decode_generate hop]
    cases w.getLsbD 7 <;> rfl
  · rw [hop, decode_reserved hop]
    cases w.getLsbD 7 <;> rfl

end Sys2Proof.Machine
end

section
/-! What the host does to the block (spec/20_memory.md sections 3 and 4): commands issued twice (R36), the steps of the
machine for each host action and what they keep (R20, R39, R101, R114), and the state after reset. -/

namespace Sys2Proof.Machine

/-! ### Commands issued again -/

/-- Settles O18: a construction starts the same instance from every state, a GENERATE of 0 bits writes no register
(O42), and NEXT_BITs answer the bits emitted. -/
theorem repeatedCommandsAndTheirEffects : Obligations.RepeatedCommandsAndTheirEffects := by
  refine ⟨fun i s hi => ?_, fun s => ?_, fun r _ s hs => ?_⟩
  · obtain ⟨o, x, -, hexec⟩ := exec_of_startsInstance hi
    exact ⟨_, _, hexec s, hexec _, rfl, rfl, rfl, rfl, rfl, rfl⟩
  · obtain ⟨t, hexec, -, -, -, -, hcount⟩ := commandsWriteOnlyTheirWriteSets.2 (.generate 0) s
    exact ⟨t, hexec, hcount rfl⟩
  · refine ⟨_, runCommands_replicate_nextBit 2 hs.1, ?_⟩
    rw [(emitN_of_heldBy hs 2).2]
    simp [List.range_succ]

/-! ### A step for each host action -/

/-- A step whose host action is a command to a block that has been reset (R44). -/
theorem step_of_command {w : CmdWord} {rest : List HostAction} {s : State}
    (hinbox : s.inbox = .command w :: rest) (hreset : s.awaitingReset = false) :
    step s = exec (decode w) { s with inbox := rest } := by
  simp [step, takeAction, hinbox, perform, hreset]

/-- A step whose host action is a command before the first reset (R114). -/
theorem step_of_command_before_reset {w : CmdWord} {rest : List HostAction} {s : State}
    (hinbox : s.inbox = .command w :: rest) (hreset : s.awaitingReset = true) :
    step s = .refused .commandBeforeReset := by
  simp [step, takeAction, hinbox, perform, hreset]

/-- A step whose host action is a second host's command (R39). -/
theorem step_of_secondHost {w : CmdWord} {rest : List HostAction} {s : State}
    (hinbox : s.inbox = .secondHost w :: rest) : step s = .refused .concurrentHosts := by
  simp [step, takeAction, hinbox, perform]

/-- A step whose host action is a power-up (R114). -/
theorem step_of_powerUp {rest : List HostAction} {s : State} (hinbox : s.inbox = .powerUp :: rest) :
    step s = .next (State.applyPower { s with inbox := rest }) := by
  simp [step, takeAction, hinbox, perform]

/-- A word of the opcode table is read as the command word of its bits (R59). -/
theorem decode_tableWord {nbits w : Nat} {i : Instr} (h : decodeTableWord nbits w = some i) :
    decode (tableWord nbits w) = i := by
  unfold decodeTableWord at h
  split at h
  · exact Option.some.inj h
  · cases h

/-- Settles O45. -/
theorem stepRunsTheDecodedCommand : Obligations.StepRunsTheDecodedCommand := by
  refine ⟨fun w rest s => step_of_command, fun nbits w i s hi => ?_⟩
  have hstep := step_of_command (State.withCommand_inbox (tableWord nbits w) s)
    (State.withCommand_awaitingReset _ s)
  rwa [decode_tableWord hi] at hstep

/-- Settles O53: power-up sets the mark on which a command is refused, and a reset clears it. -/
theorem runsOutsideTheModelAreRefused : Obligations.RunsOutsideTheModelAreRefused := by
  refine ⟨fun w rest s => step_of_secondHost, fun w rest s hinbox => ?_, fun w rest s hinbox => ?_,
    fun h s hrst hvalid hreset => ?_⟩
  · exact ⟨_, step_of_powerUp hinbox, step_of_command_before_reset rfl rfl⟩
  · obtain ⟨v, hexec, -⟩ := exec_answers (decode w) _
    exact ⟨_, _, v, step_of_powerUp hinbox, step_of_reset rfl, (step_of_command rfl rfl).trans hexec⟩
  · rw [edge_of_idle hrst, if_pos hvalid]
    simp [PortState.accept, PortState.idle, hreset]

/-! ### What every step keeps -/

/-- A command sends sound transfers alone: bits, and one response word that the block may send (R52, R101). -/
theorem exec_sent_sound {i : Instr} {s t : State} (hexec : exec i s = .next t)
    (hs : ∀ x ∈ s.sent, x.sound = true) : ∀ x ∈ t.sent, x.sound = true := by
  obtain ⟨t', hexec', bits, st, b, hsent, -⟩ := exec_answers i s
  obtain rfl := Host.Outcome.next.inj (hexec.symm.trans hexec')
  intro x hx
  simp only [hsent, List.mem_append, List.mem_map, List.mem_singleton] at hx
  obtain (hx | ⟨bit, -, rfl⟩) | rfl := hx
  · exact hs x hx
  · rfl
  · exact respWord_sound st b

/-- A command to a block that has been reset keeps the machine's invariant (R20, R101). -/
theorem exec_keeps_good {i : Instr} {s t : State} (hexec : exec i s = .next t)
    (hreset : s.awaitingReset = false) (hs : s.Good) : t.Good := by
  obtain ⟨hinv, hsent⟩ := hs
  obtain ⟨t', hexec', hinv'⟩ := exec_keeps_inv i (hinv hreset)
  obtain rfl := Host.Outcome.next.inj (hexec.symm.trans hexec')
  exact ⟨fun _ => hinv', exec_sent_sound hexec hsent⟩

/-- Settles O50, by what a step can do. A reset leaves no instance, after power-up `INV` is not asked, and neither
sends anything. -/
theorem everyStepKeepsTheMachineGood : Obligations.EveryStepKeepsTheMachineGood := by
  intro s t hs hstep
  obtain ⟨-, rfl⟩ | ⟨a, rest, -, hperform⟩ := step_next hstep
  · exact hs
  · obtain ⟨w, -, hreset, hexec⟩ | ⟨-, rfl⟩ | ⟨-, rfl⟩ := perform_next hperform
    · exact exec_keeps_good hexec hreset hs
    · exact ⟨fun _ => .inl rfl, hs.2⟩
    · exact ⟨fun hreset => (by cases hreset), hs.2⟩

/-- Settles O51. -/
theorem resetStateIsGood : Obligations.ResetStateIsGood :=
  ⟨.inl rfl, ⟨fun _ => .inl rfl, fun x hx => by cases hx⟩, rfl⟩

end Sys2Proof.Machine
end

section
/-! The ports below a transaction (spec/30_encoding.md section 1, spec/70_reset_and_hazards.md): a command from the
edge that accepts it to the last item taken (R43, R44), items that the host is not ready for (R124), and `rst` at an
edge where something could move (R116, R118). -/

namespace Sys2Proof.Machine

/-! ### A host that takes every item -/

/-- Over edges at which the host takes what is offered, one item moves an edge, and what the command comes to
stays the same (R43). -/
theorem edges_take_of_ready (p : PortState) {hs : List HostSignals}
    (hready : ∀ g ∈ hs, g.rst = false ∧ g.respReady = true ∧ g.bitReady = true) {k : Nat}
    (hk : k ≤ hs.length) (hlen : hs.length ≤ p.owed.length) :
    ∃ q, p.edges (hs.take k) = .next q ∧ q.owed = p.owed.drop k ∧ q.completed = p.completed := by
  have htaken : (hs.take k).length = k := List.length_take_of_le hk
  have hmoved := edges_of_ready (s := p.block) (owed := p.owed)
    (fun g hg => hready g (List.mem_of_mem_take hg)) (htaken.trans_le (hk.trans hlen))
  rw [htaken] at hmoved
  exact ⟨_, hmoved, rfl, by simp [PortState.completed]⟩

/-- Settles O54: the edge that accepts the command owes what the transaction sends, and each of the following edges
moves one item of it. -/
theorem portsCarryOutTheTransaction : Obligations.PortsCarryOutTheTransaction := by
  refine ⟨fun h s hrst hvalid => by simp [edge_of_idle hrst, hvalid],
    fun h s t hs hreset hrst hvalid hexec hready hlen => ?_⟩
  obtain ⟨t', bits, word, -, hexec', hsent, -, -, -, hbits, -⟩ :=
    everyCommandGetsOneResponseWord (decode h.cmd) s
  obtain rfl := Host.Outcome.next.inj (hexec.symm.trans hexec')
  rw [List.append_assoc] at hsent
  have hsince : s.sentSince t = bits.map .bitOut ++ [.resp word] := by
    rw [State.sentSince, hsent, List.drop_left]
  obtain ⟨p, haccept, howed, rfl⟩ := accept_completed hreset hexec hsent
  rw [hsince, ← howed] at hlen
  have hprogress (k : Nat) (hk : k < hs.length) :
      ∃ q, p.edges (hs.take k) = .next q ∧ q.InProgress p.completed := by
    obtain ⟨q, hq, hqowed, hqcompleted⟩ := edges_take_of_ready p hready hk.le hlen.le
    refine ⟨q, hq, hqcompleted ▸ inProgress_of_owed_ne_nil ?_⟩
    rw [hqowed, ne_eq, List.drop_eq_nil_iff]
    omega
  have hend : p.edges hs = .next (PortState.idle p.completed) := by
    simpa [← hlen] using edges_take_owed_of_ready p hready hlen.ge
  refine ⟨⟨bits, word, hsince, fun hne => (hbits hne).1⟩, rfl, p, ?_,
    inProgress_of_owed_ne_nil (by simp [howed]), hend, hprogress⟩
  rw [edge_of_idle hrst, if_pos hvalid, haccept]

/-! ### A host that is not ready -/

/-- A bit that the host is not ready for stays offered (R124). -/
theorem edge_of_bit_not_ready {h : HostSignals} (hrst : h.rst = false) {p : PortState}
    (hoffered : p.bitOffered.isSome = true) (hready : h.bitReady = false) : p.edge h = .next p := by
  obtain ⟨s, owed⟩ := p
  match owed with
  | [] => cases hoffered
  | .bitOut b :: rest => simp [PortState.edge, hrst, hready]
  | .resp w :: rest => cases hoffered

/-- A response word that the host is not ready for stays offered (R124). -/
theorem edge_of_resp_not_ready {h : HostSignals} (hrst : h.rst = false) {p : PortState}
    (hoffered : p.respOffered.isSome = true) (hready : h.respReady = false) : p.edge h = .next p := by
  obtain ⟨s, owed⟩ := p
  match owed with
  | [] => cases hoffered
  | .bitOut b :: rest => cases hoffered
  | .resp w :: rest => simp [PortState.edge, hrst, hready]

/-- Settles O55: an edge keeps what the command in progress comes to, and that differs from the block in what was
sent alone. -/
theorem backPressureLosesNothing : Obligations.BackPressureLosesNothing := by
  intro h p hrst howed
  obtain ⟨q, hedge, hq⟩ := edge_completed hrst howed
  have hstays (hp : p.edge h = .next p) : q = p := Host.Outcome.next.inj (hedge.symm.trans hp)
  have hsame : SameRegisters p.completed q.completed ∧ SameSurroundings p.completed q.completed := by
    simp [SameRegisters, SameSurroundings, hq]
  obtain ⟨hregisters, hsurroundings⟩ := hsame
  exact ⟨(inProgress_of_owed_ne_nil howed).1, q, hedge, congrArg State.sent hq, hregisters,
    hsurroundings, fun hoffered hready => hstays (edge_of_bit_not_ready hrst hoffered hready),
    fun hoffered hready => hstays (edge_of_resp_not_ready hrst hoffered hready)⟩

/-! ### A reset at the same edge -/

/-- Settles O59. -/
theorem resetWinsOverATransferAtTheSameEdge : Obligations.ResetWinsOverATransferAtTheSameEdge :=
  fun _ p hrst => ⟨edge_of_rst hrst p, rfl, rfl⟩

end Sys2Proof.Machine
end
